-- ==== Sys2Proof/Word.lean ====
section
/-! DEFINITION. The value types of the DOPE Drum Unit: bytes, slots, sector numbers, command and response words. -/

namespace Sys2Proof

/-- One byte of a serialised slot. -/
abbrev Byte := BitVec 8

/-- A slot value: 32 bits, bit 31 the spacer bit (R31). -/
abbrev Word := BitVec 32

/-- A position on the track, 0…4095: a sector number, `program_counter` or `current_sector` (R12, R13, R30). -/
abbrev Sector := BitVec 12

/-- The 16-bit argument field of a command (R55). -/
abbrev Arg := BitVec 16

/-- A command word (R52). -/
abbrev CmdWord := BitVec 64

/-- A fault code, also the status field of a response (R63, R101). -/
abbrev FaultCode := BitVec 4

/-- A response word, `status ++ rdata` (R63). -/
abbrev RspWord := BitVec 36

end Sys2Proof
end

