-- ==== Sys2Proof/Syntax.lean ====
section
/-! DEFINITION. The command set (R50): one constructor per row of the opcode table, carrying the fields the operation uses
(R59, R60). -/

namespace Sys2Proof

/-- A command as decoded (R60). An argument is carried as the 16-bit number of the command word; its range check belongs to
execution (R60, R107). -/
inductive Instr where
  /-- `SPIN_UP`, opcode 0x01 (R70). -/
  | spinUp
  /-- `ROTATE`, opcode 0x02 (R76). -/
  | rotate
  /-- `LOCATE t`, opcode 0x03 (R79). -/
  | locate (target : Arg)
  /-- `READ s`, opcode 0x04 (R85). -/
  | read (sector : Arg)
  /-- `WRITE s, v`, opcode 0x05 (R87). -/
  | write (sector : Arg) (value : Word)
  /-- `WIPE`, opcode 0x06 (R93). -/
  | wipe
  /-- `PC_LOAD p`, opcode 0x07 (R96). -/
  | pcLoad (p : Arg)
  deriving DecidableEq, Repr

end Sys2Proof
end

