-- ==== Sys2Proof/Decode.lean ====
section
/-! DEFINITION. The command word (R52 to R61): field extraction, the total decoder, and the encoder. -/

namespace Sys2Proof

/-- Why a command word is illegal (R58). -/
inductive IllegalWord where
  /-- `rsv` is not zero (R54). -/
  | reservedNonzero
  /-- `op` is none of 0x01…0x07 (R58). -/
  | unknownOpcode
  deriving DecidableEq, Repr

/-- What a command word decodes to (R60): a command, or illegal with the reason. -/
inductive Decoded where
  | command (i : Instr)
  | illegal (why : IllegalWord)
  deriving DecidableEq, Repr

/-- `op = cmd[63:56]` (R53). -/
def cmdOp (w : CmdWord) : BitVec 8 := w.extractLsb' 56 8

/-- `rsv = cmd[55:48]` (R54). -/
def cmdRsv (w : CmdWord) : BitVec 8 := w.extractLsb' 48 8

/-- `arg = cmd[47:32]` (R55). -/
def cmdArg (w : CmdWord) : Arg := w.extractLsb' 32 16

/-- `data = cmd[31:0]` (R56). -/
def cmdData (w : CmdWord) : Word := w.extractLsb' 0 32

/-- The decoder of R60. Fields a command does not use are ignored (R59). -/
def decode (w : CmdWord) : Decoded :=
  if cmdRsv w ≠ 0 then .illegal .reservedNonzero
  else if cmdOp w = 0x01 then .command .spinUp
  else if cmdOp w = 0x02 then .command .rotate
  else if cmdOp w = 0x03 then .command (.locate (cmdArg w))
  else if cmdOp w = 0x04 then .command (.read (cmdArg w))
  else if cmdOp w = 0x05 then .command (.write (cmdArg w) (cmdData w))
  else if cmdOp w = 0x06 then .command .wipe
  else if cmdOp w = 0x07 then .command (.pcLoad (cmdArg w))
  else .illegal .unknownOpcode

/-- A command word from its fields, `rsv` zero (R52). -/
def cmdWord (op : BitVec 8) (arg : Arg) (data : Word) : CmdWord :=
  op ++ (0 : BitVec 8) ++ arg ++ data

/-- The opcode of a command (R50). -/
def opcode : Instr → BitVec 8
  | .spinUp => 0x01
  | .rotate => 0x02
  | .locate _ => 0x03
  | .read _ => 0x04
  | .write _ _ => 0x05
  | .wipe => 0x06
  | .pcLoad _ => 0x07

/-- The canonical command word of a command: ignored fields zero (R59, R67). -/
def encode (i : Instr) : CmdWord :=
  match i with
  | .spinUp => cmdWord (opcode i) 0 0
  | .rotate => cmdWord (opcode i) 0 0
  | .locate t => cmdWord (opcode i) t 0
  | .read s => cmdWord (opcode i) s 0
  | .write s v => cmdWord (opcode i) s v
  | .wipe => cmdWord (opcode i) 0 0
  | .pcLoad p => cmdWord (opcode i) p 0

/-- The bits of a command word the command depends on: the opcode table's mask, and the fields it uses (R59). -/
def usedMask : Instr → CmdWord
  | .spinUp => 0xFFFF000000000000
  | .rotate => 0xFFFF000000000000
  | .locate _ => 0xFFFFFFFF00000000
  | .read _ => 0xFFFFFFFF00000000
  | .write _ _ => 0xFFFFFFFFFFFFFFFF
  | .wipe => 0xFFFF000000000000
  | .pcLoad _ => 0xFFFFFFFF00000000

/-- A table word of `nbits` bits as the command port's 64-bit word, the bits above `nbits` zero. -/
def tableWord (nbits w : Nat) : CmdWord := BitVec.ofNat 64 (w % 2 ^ nbits)

/-- The instruction the decoder reads from a table word; none where it refuses. -/
def decodeTableWord (nbits w : Nat) : Option Instr :=
  match decode (tableWord nbits w) with
  | .command i => some i
  | .illegal _ => none

end Sys2Proof
end

