-- ==== Sys2Proof/Config.lean ====
section
/-! DEFINITION. What an implementation fixes: the fixed parameters of R5, the named parameters of R6 and R7, and the
free value the random source stands for (R119). -/

namespace Sys2Proof

/-- `N_SECTORS` (R5): the number of slots on the track. -/
abbrev Config.nSectors : Nat := 4096

/-- How many bytes the track has when a slot is serialised as four (log 8). -/
abbrev Config.nBytes : Nat := 16384

/-- `WORD_MASK` (R5): the 31 meaningful bits of a slot. -/
abbrev Config.wordMask : Word := 0x7FFFFFFF

/-- The named parameters of R6 and R7, all in microseconds (D13). The spec leaves the values open and has the model take
them as arguments, so a machine state carries them and every statement is about all of them (log 2, DESIGN CHOICE). -/
structure Config.Params where
  /-- `T_SECTOR_US`: the per-sector time quantum (R6). -/
  tSectorUs : Nat
  /-- `T_REV_US`: the revolution time, informative only (R6). -/
  tRevUs : Nat
  /-- `SPINUP_PAUSES_US`: the pauses of `SPIN_UP`, first to last (R7). -/
  spinupPausesUs : List Nat
  deriving DecidableEq, Repr

/-- The constraints R6 and R7 put on the parameters: positive times, and a non-empty, strictly decreasing list of positive
pauses. -/
abbrev Config.Params.ok (p : Config.Params) : Prop :=
  0 < p.tSectorUs ∧ 0 < p.tRevUs ∧ p.spinupPausesUs ≠ [] ∧
    p.spinupPausesUs.Pairwise (fun a b => b < a) ∧ ∀ d ∈ p.spinupPausesUs, 0 < d

/-- The values the spec suggests in R6 and R7 (log 2, DESIGN CHOICE: the spec calls them `OPEN`). -/
def Config.suggestedParams : Config.Params :=
  { tSectorUs := 4, tRevUs := 16667, spinupPausesUs := [16000, 8000, 4000, 2000, 1000] }

/-- The random source's answer to a draw, by the draw's number: a free input in 0…4095 under no law (R119, U1, D15; log 3).
It has no body, so nothing can be proved of its values. -/
opaque Config.freeDraw : Nat → Sector

end Sys2Proof
end

