-- ==== Sys2Proof/Machine/State.lean ====
section
/-! DEFINITION. The machine's state as plain data (R10 to R22), the reasons a step can stop, and the state after RESET
(R130, R131). -/

namespace Sys2Proof.Machine

/-- The drum's slots as bytes, `(address, byte)` pairs in canonical form (`Memory.wf`); slot `s` is bytes `4 s … 4 s + 3`
(log 8). -/
abbrev Memory := List Host.Cell

/-- `phase` (R17): which multi-step command is in progress. -/
inductive Phase where
  /-- No command in progress. -/
  | idle
  /-- A `SPIN_UP` is in progress and `i` pauses have been requested. -/
  | spinPause (i : Nat)
  /-- A `LOCATE` with target `t` is in progress. -/
  | locating (t : Sector)
  deriving DecidableEq, Repr

/-- An event of the trace (R22). -/
inductive Event where
  /-- One request to the delay device for at least `us` microseconds (R118). -/
  | delay (us : Nat)
  /-- One rotation step, `c` the value of `current_sector` just after it. -/
  | rotate (c : Sector)
  deriving DecidableEq, Repr

/-- The usage faults of R101. -/
inductive UsageFault where
  /-- Code 1, `NULL_UNIT`: reserved, never raised (R104). -/
  | nullUnit
  /-- Code 2, `NOT_SPINNING` (R102). -/
  | notSpinning
  /-- Code 3, `SECTOR_RANGE` (R103). -/
  | sectorRange
  /-- Code 4, `PC_RANGE` (R105). -/
  | pcRange
  /-- Code 5, `ILLEGAL_COMMAND` (R106). -/
  | illegalCommand
  deriving DecidableEq, Repr

/-- The lifecycle states of R18. -/
inductive Lifecycle where
  | unpowered
  | spinning
  | faulted
  deriving DecidableEq, Repr

/-- Everything the spec gives the unit (R10 to R17, R22), its ports (R62, R63), its parameters (R6, R7), and the model's
own account of the caller and of the random source (R19). -/
structure State where
  /-- `memory` (R15). -/
  mem : Memory
  /-- `program_counter` (R12). -/
  pc : Sector
  /-- `current_sector` (R13). -/
  cs : Sector
  /-- `is_spinning` (R14). -/
  spinning : Bool
  /-- `fault` (R16): 0, or the code of the usage fault that stopped the unit. -/
  fault : FaultCode
  /-- `phase` (R17). -/
  phase : Phase
  /-- The event trace of the run, oldest first (R22; log 12). -/
  trace : List Event
  /-- The `CMD` input (R62). -/
  cmd : CmdWord
  /-- The `CMD_VALID` input (R62). -/
  cmdValid : Bool
  /-- The model's own: the command words the caller has still to present, in order (R19; log 1). -/
  script : List CmdWord
  /-- The `RSP` output (R63). -/
  rsp : RspWord
  /-- The `RSP_VALID` output (R63; log 4). -/
  rspValid : Bool
  /-- The model's own: the answers the injected random source holds, in order (R119; log 3). -/
  rngAnswers : List Sector
  /-- The model's own: how many draws have been made (log 3). -/
  drawCount : Nat
  /-- The named parameters (R6, R7; log 2). -/
  params : Config.Params
  deriving DecidableEq, Repr

/-- Why the machine stops. -/
inductive Fault where
  /-- `step` at a Faulted unit (R109, V7: no step exists for the rest of the run), with the latched code. Safe: the machine
  stops where the hardware accepts nothing more (log 5). -/
  | halted (code : FaultCode)
  deriving DecidableEq, Repr

/-- Why the model gives no meaning. -/
inductive Refusal where
  /-- An arm of `exec` that has no meaning yet. No arm is one. Safe. -/
  | notModelled (mnemonic : String)
  /-- `applyReset` while a command is in progress: the spec gives it no meaning (R130, V8). Safe (log 11). -/
  | resetWhileBusy
  deriving DecidableEq, Repr

/-- The machine right after RESET with parameters `p` (R130, R131). The ports and the model's own fields stand at the values
log 4 and log 7 name (DESIGN CHOICE). -/
def State.resetWith (p : Config.Params) : State :=
  { mem := [], pc := 0, cs := 0, spinning := false, fault := 0, phase := .idle, trace := [],
    cmd := 0, cmdValid := false, script := [], rsp := 0, rspValid := false,
    rngAnswers := [], drawCount := 0, params := p }

/-- The machine right after RESET (R131), with the parameters the spec suggests (log 2, DESIGN CHOICE). -/
def State.reset : State := State.resetWith Config.suggestedParams

end Sys2Proof.Machine
end

