-- ==== Sys2Proof/Machine/Flags.lean ====
section
/-! DEFINITION. The unit has no condition codes (R14); what it shows are the status outputs of R21, the lifecycle state of
R18 and the fields of the response port (R63). All are functions of the state and have no side effect. -/

namespace Sys2Proof.Machine

/-- `ready := (fault = 0) and (phase = Idle)` (R20). -/
def State.ready (s : State) : Bool := decide (s.fault = 0) && decide (s.phase = .idle)

/-- The `SPINNING` output (R21). -/
def outSpinning (s : State) : BitVec 1 := BitVec.ofBool s.spinning

/-- The `SECTOR` output (R21). -/
def outSector (s : State) : Sector := s.cs

/-- The `PC` output (R21). -/
def outPc (s : State) : Sector := s.pc

/-- The `READY` output (R21). -/
def outReady (s : State) : BitVec 1 := BitVec.ofBool s.ready

/-- The `FAULT` output (R21). -/
def outFault (s : State) : BitVec 1 := BitVec.ofBool (decide (s.fault ≠ 0))

/-- The `FAULT_CODE` output (R21). -/
def outFaultCode (s : State) : FaultCode := s.fault

/-- The lifecycle state, a function of `spinning` and `fault` (R18). -/
def lifecycle (s : State) : Lifecycle :=
  if s.fault ≠ 0 then .faulted else if s.spinning then .spinning else .unpowered

/-- A response word: `status ++ rdata` (R63). -/
def rspWord (status : FaultCode) (data : Word) : RspWord := status ++ data

/-- The `status` field of a response word, bits 35…32 (R63). -/
def rspStatus (r : RspWord) : FaultCode := r.extractLsb' 32 4

/-- The `rdata` field of a response word, bits 31…0 (R63). -/
def rspData (r : RspWord) : Word := r.extractLsb' 0 32

/-- An access to sector `x` in state `s` is aligned: the head is on it (R37). For stating properties; no rule reads it. -/
def aligned (s : State) (x : Sector) : Bool := decide (s.cs = x)

end Sys2Proof.Machine
end

