-- ==== Sys2Proof/Machine/Operands.lean ====
section
/-! DEFINITION. Operand forms and position arithmetic: the range test and the cut to 12 bits of R55 and R57, the normalised
word of R31, the rotational distance of R34. -/

namespace Sys2Proof.Machine

/-- The range test on a 16-bit argument, `arg <= 4095`, unsigned (R55, R35b). -/
def inRange (a : Arg) : Bool := decide (a ≤ 4095)

/-- `arg[11:0]`, the position an in-range argument names (R55, R65). -/
def sectorOf (a : Arg) : Sector := a.extractLsb' 0 12

/-- `norm(v) = v AND 0x7FFFFFFF`: the value with the spacer bit cleared (R31, R35d). -/
def normWord (v : Word) : Word := v &&& Config.wordMask

/-- Two 32-bit values denote the same word (R36). -/
def sameWord (v w : Word) : Bool := decide (normWord v = normWord w)

/-- The position one sector on: `(c + 1) mod 4096`, from 4095 to 0 (R35a). -/
def nextSector (c : Sector) : Sector := c + 1

/-- Rotational distance from `c` to `t`: `(t - c) mod 4096` (R34). The subtraction is of numbers, made non-negative by one
revolution. -/
def sectorDist (c t : Sector) : Nat := (t.toNat + Config.nSectors - c.toNat) % Config.nSectors

end Sys2Proof.Machine
end

