-- ==== Sys2Proof/Machine/Ops.lean ====
section
/-! DEFINITION. The named operations: byte and slot accesses, events and responses, the rotation step, the draw, the checks
of R107, raising a usage fault (R109), and accepting a command (R65). -/

namespace Sys2Proof.Machine

/-! ### Memory -/

/-- What an unlisted byte reads as: the reset contents, zero (R131). -/
def Memory.blank : Byte := 0x00

/-- The canonical form: addresses strictly rising and inside the track, no listed byte equal to the unlisted one. -/
abbrev Memory.wf (m : Memory) : Prop :=
  m.Pairwise (fun p q => p.1 < q.1) ∧ ∀ p ∈ m, p.2 ≠ Memory.blank ∧ p.1 < Config.nBytes

/-- The byte at an address. -/
def Memory.readByte : Memory → Nat → Byte
  | [], _ => Memory.blank
  | (a, b) :: m, x => if x = a then b else Memory.readByte m x

/-- Put a byte in front of a memory, unless it is the one an unlisted address reads as. -/
def Memory.consByte (x : Nat) (v : Byte) (m : Memory) : Memory :=
  if v = Memory.blank then m else (x, v) :: m

/-- Store one byte, keeping the canonical form. -/
def Memory.writeByte : Memory → Nat → Byte → Memory
  | [], x, v => Memory.consByte x v []
  | (a, b) :: m, x, v =>
    if x < a then Memory.consByte x v ((a, b) :: m)
    else if x = a then Memory.consByte x v m
    else (a, b) :: Memory.writeByte m x v

/-- The address of the first of a slot's four bytes (log 8). -/
def slotAddr (s : Sector) : Nat := 4 * s.toNat

/-- `MemRead(s, 32)` (R9, R40): the slot, least significant byte at the lowest address (log 8), the spacer bit wired to 0
(R15, D26; log 9). -/
def memRead (m : Memory) (s : Sector) : Word :=
  normWord (m.readByte (slotAddr s + 3) ++ m.readByte (slotAddr s + 2) ++ m.readByte (slotAddr s + 1) ++
    m.readByte (slotAddr s))

/-- `MemWrite(s, 32, v)` (R9, R40): store the slot's four bytes; the spacer bit holds nothing (R15, D26; log 9). -/
def memWrite (m : Memory) (s : Sector) (v : Word) : Memory :=
  (((m.writeByte (slotAddr s) ((normWord v).extractLsb' 0 8)).writeByte (slotAddr s + 1) ((normWord v).extractLsb' 8 8)).writeByte
    (slotAddr s + 2) ((normWord v).extractLsb' 16 8)).writeByte (slotAddr s + 3) ((normWord v).extractLsb' 24 8)

/-- All 4096 slots cleared (R93): every byte at what an unlisted address reads as, in canonical form. -/
def memClear : Memory := []

/-! ### Events, responses, rotation, draws -/

/-- `emit`: append an event to the trace (R9, R22). -/
def emitEvent (e : Event) (s : State) : State := { s with trace := s.trace ++ [e] }

/-- `respond(status, data)`: complete the command (R9, R63). -/
def respond (status : FaultCode) (data : Word) (s : State) : State :=
  { s with rsp := rspWord status data, rspValid := true }

/-- The rotation step (R75): advance by one, then the two events, position first (D12). -/
def rotationStep (s : State) : State :=
  emitEvent (.delay s.params.tSectorUs)
    (emitEvent (.rotate (nextSector s.cs)) { s with cs := nextSector s.cs })

/-- The value of the next draw (R119): the answer the source holds, or else a free value (log 3). -/
def drawValue (s : State) : Sector :=
  match s.rngAnswers with
  | r :: _ => r
  | [] => Config.freeDraw s.drawCount

/-- The draw made: its answer is used up. -/
def drawDone (s : State) : State :=
  { s with rngAnswers := s.rngAnswers.tail, drawCount := s.drawCount + 1 }

/-! ### Usage faults -/

/-- The code of a usage fault (R101). -/
def faultCode : UsageFault → FaultCode
  | .nullUnit => 1
  | .notSpinning => 2
  | .sectorRange => 3
  | .pcRange => 4
  | .illegalCommand => 5

/-- `raise UsageFault(code)` (R109): the fault is latched and answered; nothing else changes. -/
def raiseUsageFault (f : UsageFault) (s : State) : State :=
  respond (faultCode f) 0 { s with fault := faultCode f }

/-- The commands that require the Spinning state (R102, R116). -/
def needsSpinning : Instr → Bool
  | .spinUp => false
  | .rotate => true
  | .locate _ => true
  | .read _ => true
  | .write _ _ => true
  | .wipe => false
  | .pcLoad _ => true

/-- The range check of a command's argument (R107, checks 3 and 4). -/
def rangeFault : Instr → Option UsageFault
  | .spinUp => none
  | .rotate => none
  | .locate t => if inRange t then none else some .sectorRange
  | .read x => if inRange x then none else some .sectorRange
  | .write x _ => if inRange x then none else some .sectorRange
  | .wipe => none
  | .pcLoad p => if inRange p then none else some .pcRange

/-- `check(state, c)` (R107): the first failing check, in the order legality, Spinning state, range. -/
def check (s : State) (c : Decoded) : Option UsageFault :=
  match c with
  | .illegal _ => some .illegalCommand
  | .command i => if needsSpinning i && !s.spinning then some .notSpinning else rangeFault i

/-! ### Acceptance -/

/-- The handshake (R62): the word is taken from the port, and the previous response is no longer shown (log 4). -/
def takeCommand (s : State) : State := { s with cmdValid := false, rspValid := false }

/-- Accepting the legal command `i` (R65): every check first; a failing one raises its fault, else the effect happens. -/
def acceptCommand (s : State) (i : Instr) (effect : State → State) : Host.Outcome State Fault Refusal :=
  match check s (.command i) with
  | some f => .next (raiseUsageFault f (takeCommand s))
  | none => .next (effect (takeCommand s))

/-- Accepting an illegal word (R58, R65, R106). -/
def acceptIllegal (s : State) : Host.Outcome State Fault Refusal :=
  .next (raiseUsageFault .illegalCommand (takeCommand s))

/-- The caller's step (R19a): with the unit ready and the port empty, the next word of its script is presented; with no word
left, nothing happens (log 1, log 6). -/
def presentNext (s : State) : State :=
  match s.script with
  | [] => s
  | w :: ws => { s with cmd := w, cmdValid := true, script := ws }

end Sys2Proof.Machine
end

