-- ==== Sys2Proof/Machine/Access.lean ====
section
/-! DEFINITION. `READ` (R85, R86) and `WRITE` (R87 to R90). Neither looks at the head position (R37). -/

namespace Sys2Proof.Machine

/-- `READ s` (R85): respond with the slot; the mask is the document's, redundant by R24. -/
def execRead (sector : Arg) (s : State) : Host.Outcome State Fault Refusal :=
  acceptCommand s (.read sector) (fun t => respond 0 (normWord (memRead t.mem (sectorOf sector))) t)

/-- `WRITE s, v` (R87): store the value with bit 31 cleared. -/
def execWrite (sector : Arg) (value : Word) (s : State) : Host.Outcome State Fault Refusal :=
  acceptCommand s (.write sector value)
    (fun t => respond 0 0 { t with mem := memWrite t.mem (sectorOf sector) (normWord value) })

end Sys2Proof.Machine
end

