-- ==== Sys2Proof/Machine/PcLoad.lean ====
section
/-! DEFINITION. `PC_LOAD` (R96, R97), the command the spec adds (D16). -/

namespace Sys2Proof.Machine

/-- `PC_LOAD p` (R96). -/
def execPcLoad (p : Arg) (s : State) : Host.Outcome State Fault Refusal :=
  acceptCommand s (.pcLoad p) (fun t => respond 0 0 { t with pc := sectorOf p })

end Sys2Proof.Machine
end

