-- ==== Sys2Proof/Machine/Rotation.lean ====
section
/-! DEFINITION. `ROTATE` (R76 to R78) and `LOCATE` (R79 to R82). -/

namespace Sys2Proof.Machine

/-- `ROTATE` (R76): one rotation step. -/
def execRotate (s : State) : Host.Outcome State Fault Refusal :=
  acceptCommand s .rotate (fun t => respond 0 0 (rotationStep t))

/-- `LOCATE t` accepted (R65, R79): the search begins. -/
def execLocate (target : Arg) (s : State) : Host.Outcome State Fault Refusal :=
  acceptCommand s (.locate target) (fun t => { t with phase := .locating (sectorOf target) })

/-- The step of the unit in `Locating(t)` (R80): the test comes before the rotation step. -/
def locateStep (t : Sector) (s : State) : State :=
  if s.cs = t then respond 0 0 { s with phase := .idle } else rotationStep s

end Sys2Proof.Machine
end

