-- ==== Sys2Proof/Machine/SpinUp.lean ====
section
/-! DEFINITION. `SPIN_UP` (R70 to R73): its acceptance and its internal steps. -/

namespace Sys2Proof.Machine

/-- `SPIN_UP` accepted (R65, R70): the pauses begin; legal in Unpowered and in Spinning (R72). -/
def execSpinUp (s : State) : Host.Outcome State Fault Refusal :=
  acceptCommand s .spinUp (fun t => { t with phase := .spinPause 0 })

/-- The last step of `SPIN_UP` (R71), one atomic step: `pc` zero, the head at the drawn position, Spinning. -/
def finishSpinUp (s : State) : State :=
  respond 0 0 { drawDone s with pc := 0, cs := drawValue s, spinning := true, phase := .idle }

/-- The step of the unit in `SpinPause(i)` (R71): request pause `i`, or finish when all have been requested. No run has
`i` above the number of pauses (log 15). -/
def spinUpStep (i : Nat) (s : State) : State :=
  match s.params.spinupPausesUs[i]? with
  | some d => emitEvent (.delay d) { s with phase := .spinPause (i + 1) }
  | none => finishSpinUp s

end Sys2Proof.Machine
end

