-- ==== Sys2Proof/Machine/Wipe.lean ====
section
/-! DEFINITION. `WIPE` (R93, R94). -/

namespace Sys2Proof.Machine

/-- `WIPE` (R93): every slot, `pc` and `cs` to zero and Unpowered, one atomic step; accepted in either lifecycle state
(R94). -/
def execWipe (s : State) : Host.Outcome State Fault Refusal :=
  acceptCommand s .wipe
    (fun t => respond 0 0 { t with mem := memClear, pc := 0, cs := 0, spinning := false })

end Sys2Proof.Machine
end

