-- ==== Sys2Proof/Machine/Dispatch.lean ====
section
/-! DEFINITION. The meaning of each command, once accepted by a ready unit (R65; log 14). -/

namespace Sys2Proof.Machine

def exec (i : Instr) (s : State) : Host.Outcome State Fault Refusal :=
  match i with
  | .spinUp => Sys2Proof.Machine.execSpinUp s
  | .rotate => Sys2Proof.Machine.execRotate s
  | .locate target => Sys2Proof.Machine.execLocate target s
  | .read sector => Sys2Proof.Machine.execRead sector s
  | .write sector value => Sys2Proof.Machine.execWrite sector value s
  | .wipe => Sys2Proof.Machine.execWipe s
  | .pcLoad p => Sys2Proof.Machine.execPcLoad p s

end Sys2Proof.Machine
end

