-- ==== Sys2Proof/Machine/Step.lean ====
section
/-! DEFINITION. One step of the machine: the unit's internal step, the acceptance of the word on the command port, or the
caller's presenting of its next word (R19, R62, R65). -/

namespace Sys2Proof.Machine

/-- The word on the command port is accepted by a ready unit (R65). -/
def acceptWord (s : State) : Host.Outcome State Fault Refusal :=
  match decode s.cmd with
  | .command i => exec i s
  | .illegal _ => acceptIllegal s

/-- One step. Exactly one of the caller and the unit can step (R19). A Faulted unit has no step (R109, V7; log 5); a command
in progress goes on by its internal steps and a word on the port is held meanwhile (R62, R71, R80, V6). -/
def step (s : State) : Host.Outcome State Fault Refusal :=
  if s.fault ≠ 0 then .fault (.halted s.fault)
  else
    match s.phase with
    | .spinPause i => .next (spinUpStep i s)
    | .locating t => .next (locateStep t s)
    | .idle => if s.cmdValid then acceptWord s else .next (presentNext s)

/-- `s` with a table word on the command port and the unit ready for it, so that the next step accepts it: it stands for the
caller's presenting of a command (log 1). After RESET the unit is ready already. -/
def State.withFetchWord (s : State) (nbits w : Nat) : State :=
  { s with cmd := tableWord nbits w, cmdValid := true, fault := 0, phase := .idle }

end Sys2Proof.Machine
end

