-- ==== Sys2Proof/Machine/Reset.lean ====
section
/-! DEFINITION. The RESET input (R51, R130). It begins a run and is no step of one (R130), so it stands beside `step`. -/

namespace Sys2Proof.Machine

/-- RESET of the unit in state `s` (R130): the state of R131, the parameters and what stands outside the unit (the caller's
words, the random source) as they were. While a command is in progress RESET has no meaning (V8; log 11). -/
def applyReset (s : State) : Host.Outcome State Fault Refusal :=
  if s.phase = .idle then
    .next { State.resetWith s.params with
      cmd := s.cmd, cmdValid := s.cmdValid, script := s.script,
      rngAnswers := s.rngAnswers, drawCount := s.drawCount }
  else .refused .resetWhileBusy

end Sys2Proof.Machine
end

