-- ==== Sys2Proof/Machine/Caller.lean ====
section
/-! DEFINITION. The caller's side: the assembler-like syntax of R67, read line by line, the pseudo-commands of R68, and the
issuing of lines. The unit never sees the text; what reaches it is command words and the RESET input. -/

namespace Sys2Proof.Machine

/-- A line of the caller's text (R67, R68). -/
inductive SourceLine where
  /-- Nothing but blanks or a comment. -/
  | empty
  /-- `RESET`: the reset input, not a command. -/
  | reset
  /-- A command. -/
  | command (i : Instr)
  /-- `AREAD s`: aligned read. -/
  | aread (sector : Arg)
  /-- `AWRITE s, v`: aligned write. -/
  | awrite (sector : Arg) (value : Word)
  /-- `IDLE n`: let `n` sector times pass. -/
  | idle (n : Nat)
  /-- `FETCH`: aligned read at the `PC` output. -/
  | fetch
  deriving DecidableEq, Repr

/-! ### Pseudo-commands (R68) -/

/-- The expansion of a line into commands, `pc` being the `PC` output at the time of issue (R68). A `RESET` line is no
command (R67): `issueLine` gives it its meaning. -/
def expandLine (pc : Sector) : SourceLine → List Instr
  | .empty => []
  | .reset => []
  | .command i => [i]
  | .aread x => [.locate x, .read x]
  | .awrite x v => [.locate x, .write x v]
  | .idle n => List.replicate n .rotate
  | .fetch => [.locate (pc.setWidth 16), .read (pc.setWidth 16)]

/-! ### Issuing a line (R67, R68) -/

/-- The caller has still to present the words `ws`, after those it had before. -/
def addWords (ws : List CmdWord) (s : State) : State := { s with script := s.script ++ ws }

/-- The caller gives up every word that has not been accepted (R62). -/
def withdrawWords (s : State) : State := { s with cmdValid := false, script := [] }

/-- The caller issues a line. A `RESET` line is the reset input (R67, R130): words of earlier lines not yet accepted belong
to the run that ends and are withdrawn, and then `applyReset` (log 17). The words of any other line follow the script. -/
def issueLine (l : SourceLine) (s : State) : Host.Outcome State Fault Refusal :=
  if l = .reset then applyReset (withdrawWords s)
  else .next (addWords ((expandLine (outPc s) l).map encode) s)

/-! ### Running a text (R67: one line after another) -/

/-- What follows an outcome that answers a next state; a stop stays as it is. -/
def andThen (o : Host.Outcome State Fault Refusal) (f : State → Host.Outcome State Fault Refusal) :
    Host.Outcome State Fault Refusal :=
  match o with
  | .next t => f t
  | .fault r => .fault r
  | .refused r => .refused r

/-- Nothing more will happen to the words issued so far: all have been run, or the unit is Faulted (R109). -/
def settled (s : State) : Bool :=
  decide (s.fault ≠ 0) || (s.ready && !s.cmdValid && s.script.isEmpty)

/-- At most `k` steps, until the words issued so far are settled. -/
def settle : Nat → State → Host.Outcome State Fault Refusal
  | 0, s => .next s
  | k + 1, s => if settled s then .next s else andThen (step s) (settle k)

/-- As many steps as settling can take: for each word the presenting, the acceptance and the longest command, and for a
command in progress and a word on the port as well. -/
def settleBound (s : State) : Nat :=
  (s.script.length + 2) * (max 4096 (s.params.spinupPausesUs.length + 1) + 2)

/-- The caller issues the lines of a text one by one, each when the words of the lines before it are settled (R138, H4). -/
def runText : List SourceLine → State → Host.Outcome State Fault Refusal
  | [], s => .next s
  | l :: ls, s => andThen (issueLine l s) (fun t => andThen (settle (settleBound t) t) (runText ls))

/-! ### Reading a line (R67) -/

/-- The value of a hexadecimal digit. -/
def hexDigit (c : Char) : Option Nat :=
  if '0'.toNat ≤ c.toNat ∧ c.toNat ≤ '9'.toNat then some (c.toNat - '0'.toNat)
  else if 'A'.toNat ≤ c.toNat ∧ c.toNat ≤ 'F'.toNat then some (c.toNat - 'A'.toNat + 10)
  else if 'a'.toNat ≤ c.toNat ∧ c.toNat ≤ 'f'.toNat then some (c.toNat - 'a'.toNat + 10)
  else none

/-- Digits in a base, most significant first, `_` a visual separator (R9), the number read so far in front. -/
def readDigits (base : Nat) : Nat → List Char → Option Nat
  | acc, [] => some acc
  | acc, c :: cs =>
    if c = '_' then readDigits base acc cs
    else
      match hexDigit c with
      | some d => if d < base then readDigits base (base * acc + d) cs else none
      | none => none

/-- There is a digit among separators. -/
def hasDigit (cs : List Char) : Bool := cs.any (fun c => c ≠ '_')

/-- A decimal or `0x` hexadecimal number (R67). -/
def readNumber (cs : List Char) : Option Nat :=
  match cs with
  | [] => none
  | '0' :: 'x' :: ds => if hasDigit ds then readDigits 16 0 ds else none
  | c :: ds => if hasDigit (c :: ds) then readDigits 10 0 (c :: ds) else none

/-- A number that fits the 16-bit argument field (R55). -/
def readArg (cs : List Char) : Option Arg :=
  match readNumber cs with
  | some n => if n < 65536 then some (BitVec.ofNat 16 n) else none
  | none => none

/-- A number that fits the 32-bit data field (R56). -/
def readValue (cs : List Char) : Option Word :=
  match readNumber cs with
  | some n => if n < 4294967296 then some (BitVec.ofNat 32 n) else none
  | none => none

/-- A blank of the text. -/
def isBlank (c : Char) : Bool := c = ' ' || c = '\t'

/-- A piece of text without the blanks around it. -/
def trimBlanks (cs : List Char) : List Char :=
  ((cs.dropWhile isBlank).reverse.dropWhile isBlank).reverse

/-- A text cut at each `sep`: one piece more than there are separators. -/
def splitAtChar (sep : Char) : List Char → List (List Char)
  | [] => [[]]
  | c :: cs =>
    if c = sep then [] :: splitAtChar sep cs
    else
      match splitAtChar sep cs with
      | [] => [[c]]
      | p :: ps => (c :: p) :: ps

/-- A mnemonic with its operands (R67, R68); none where it is not a line of the syntax. -/
def readCommand (name : List Char) (ops : List (List Char)) : Option SourceLine :=
  if name = ['R', 'E', 'S', 'E', 'T'] ∧ ops = [[]] then some .reset
  else if name = ['S', 'P', 'I', 'N', '_', 'U', 'P'] ∧ ops = [[]] then some (.command .spinUp)
  else if name = ['R', 'O', 'T', 'A', 'T', 'E'] ∧ ops = [[]] then some (.command .rotate)
  else if name = ['W', 'I', 'P', 'E'] ∧ ops = [[]] then some (.command .wipe)
  else if name = ['F', 'E', 'T', 'C', 'H'] ∧ ops = [[]] then some .fetch
  else
    match ops with
    | [a] =>
      if name = ['L', 'O', 'C', 'A', 'T', 'E'] then (readArg a).map (fun t => .command (.locate t))
      else if name = ['R', 'E', 'A', 'D'] then (readArg a).map (fun x => .command (.read x))
      else if name = ['P', 'C', '_', 'L', 'O', 'A', 'D'] then (readArg a).map (fun p => .command (.pcLoad p))
      else if name = ['A', 'R', 'E', 'A', 'D'] then (readArg a).map .aread
      else if name = ['I', 'D', 'L', 'E'] then (readNumber a).map .idle
      else none
    | [a, b] =>
      match readArg a, readValue b with
      | some x, some v =>
        if name = ['W', 'R', 'I', 'T', 'E'] then some (.command (.write x v))
        else if name = ['A', 'W', 'R', 'I', 'T', 'E'] then some (.awrite x v)
        else none
      | some _, none => none
      | none, some _ => none
      | none, none => none
    | [] => none
    | _ :: _ :: _ :: _ => none

/-- One line of the syntax of R67: a mnemonic, operands separated by commas, a comment after `;`. -/
def readLine (cs : List Char) : Option SourceLine :=
  match trimBlanks (cs.takeWhile (fun c => c ≠ ';')) with
  | [] => some .empty
  | d :: ds =>
    readCommand ((d :: ds).takeWhile (fun c => !isBlank c))
      ((splitAtChar ',' ((d :: ds).dropWhile (fun c => !isBlank c))).map trimBlanks)

/-- Every line read; none where one of them is not a line of the syntax. -/
def readLines : List (List Char) → Option (List SourceLine)
  | [] => some []
  | cs :: rest =>
    match readLine cs, readLines rest with
    | some l, some ls => some (l :: ls)
    | some _, none => none
    | none, _ => none

/-- A text of the syntax of R67, one command per line. -/
def readText (cs : List Char) : Option (List SourceLine) := readLines (splitAtChar '\n' cs)

end Sys2Proof.Machine
end

