-- ==== Sys2Proof/Machine/Trace.lean ====
section
/-! DEFINITION. Observations on the event trace (R22, R145) and the expected events of rotations (R78). -/

namespace Sys2Proof.Machine

/-- The duration a `Delay` event requests; none of the others requests any. -/
def eventDelay : Event → Nat
  | .delay us => us
  | .rotate _ => 0

/-- The event is a rotation. -/
def eventIsRotate : Event → Bool
  | .delay _ => false
  | .rotate _ => true

/-- `requested(trace)` (R145): the sum of all requested durations. -/
def requested (tr : List Event) : Nat := (tr.map eventDelay).sum

/-- The rotation count of a run (R145). -/
def rotations (tr : List Event) : Nat := tr.countP eventIsRotate

/-- How many requests a run has made of the delay device (R144): the events of the trace that are not rotations (R22). -/
def delays (tr : List Event) : Nat := tr.countP (fun e => !eventIsRotate e)

/-- The events of `k` rotation steps from position `c` with quantum `us` (R78): `k` pairs, position first. -/
def rotationEvents (us : Nat) : Nat → Sector → List Event
  | 0, _ => []
  | k + 1, c => .rotate (nextSector c) :: .delay us :: rotationEvents us k (nextSector c)

end Sys2Proof.Machine
end

