-- ==== Sys2Proof/Machine/BigStep.lean ====
section
/-! DEFINITION. The big-step view of R66: each command as one function from the state at acceptance, the command and the
drawn value to the state at completion, the response and the events. It is written from the **Result** lines of the family
files and shares no meaning with `exec`; a statement says that the two agree. -/

namespace Sys2Proof.Machine

/-- The part of the state the unit itself owns (R10, R16): what a big step maps. -/
structure DrumUnit where
  mem : Memory
  pc : Sector
  cs : Sector
  spinning : Bool
  fault : FaultCode
  deriving DecidableEq, Repr

/-- What one command does as a whole (R66). -/
structure BigResult where
  unit : DrumUnit
  status : FaultCode
  rdata : Word
  events : List Event
  deriving DecidableEq, Repr

/-- The unit's own part of a state. -/
def unitOf (s : State) : DrumUnit :=
  { mem := s.mem, pc := s.pc, cs := s.cs, spinning := s.spinning, fault := s.fault }

/-- The outcome of a command that fails a check (R109): the code latched, everything else as it was. -/
def bigFault (code : FaultCode) (u : DrumUnit) : BigResult :=
  { unit := { u with fault := code }, status := code, rdata := 0, events := [] }

/-- A completed command with no data and no event. -/
def bigDone (u : DrumUnit) : BigResult := { unit := u, status := 0, rdata := 0, events := [] }

/-- What the spec's **Faults** lines say of a command that needs the Spinning state: code 2 while not spinning, else the
range code for an argument above 4095, else the effect (R76, R79, R85, R87, R96). -/
def bigGuard (u : DrumUnit) (arg : Nat) (rangeCode : FaultCode) (effect : BigResult) : BigResult :=
  if u.spinning = false then bigFault 2 u else if 4095 < arg then bigFault rangeCode u else effect

/-- The big step (R66), with `r` the drawn position, used by `SPIN_UP` only. -/
def bigStep (p : Config.Params) (c : Decoded) (r : Sector) (u : DrumUnit) : BigResult :=
  match c with
  | .illegal _ => bigFault 5 u
  | .command .spinUp =>
    { unit := { u with pc := 0, cs := r, spinning := true }, status := 0, rdata := 0,
      events := p.spinupPausesUs.map .delay }
  | .command .rotate =>
    bigGuard u 0 0 { unit := { u with cs := u.cs + 1 }, status := 0, rdata := 0,
                     events := [.rotate (u.cs + 1), .delay p.tSectorUs] }
  | .command (.locate t) =>
    bigGuard u t.toNat 3 { unit := { u with cs := sectorOf t }, status := 0, rdata := 0,
                           events := rotationEvents p.tSectorUs (sectorDist u.cs (sectorOf t)) u.cs }
  | .command (.read x) =>
    bigGuard u x.toNat 3 { unit := u, status := 0, rdata := memRead u.mem (sectorOf x) &&& 0x7FFFFFFF, events := [] }
  | .command (.write x v) =>
    bigGuard u x.toNat 3 (bigDone { u with mem := memWrite u.mem (sectorOf x) (v &&& 0x7FFFFFFF) })
  | .command .wipe => bigDone { u with mem := [], pc := 0, cs := 0, spinning := false }
  | .command (.pcLoad q) => bigGuard u q.toNat 4 (bigDone { u with pc := sectorOf q })

/-- How many steps of the machine a command takes, its acceptance included (R73a, R81): a pause step each and a last step
for `SPIN_UP`, a rotation step each and a completing step for `LOCATE`. -/
def stepsOf (s : State) (c : Decoded) : Nat :=
  match check s c, c with
  | some _, _ => 1
  | none, .command .spinUp => 1 + s.params.spinupPausesUs.length + 1
  | none, .command (.locate t) => 1 + sectorDist s.cs (sectorOf t) + 1
  | none, _ => 1

/-- The whole machine after a command that was on the port is complete: the unit and the events by `bigStep`, the response
shown, the word taken, and for `SPIN_UP` one draw made. -/
def completed (s : State) (c : Decoded) : State :=
  let b := bigStep s.params c (drawValue s) (unitOf s)
  let t := if c = .command .spinUp then drawDone s else s
  { t with mem := b.unit.mem, pc := b.unit.pc, cs := b.unit.cs, spinning := b.unit.spinning, fault := b.unit.fault,
           trace := s.trace ++ b.events, cmdValid := false, rsp := rspWord b.status b.rdata, rspValid := true }

end Sys2Proof.Machine
end

