-- ==== Sys2Proof/Safety.lean ====
section
/-! DEFINITION. What statements are said in: the invariant of R23 to R26 with the decided registers' own, and a run that has
not gone wrong (R109). -/

namespace Sys2Proof.Machine

/-- The run has not gone wrong: no usage fault has been raised (R109). -/
def NoFault (s : State) : Prop := s.fault = 0

/-- The spacer bit of every slot is stored as zero (R24): bit 7 of the slot's last byte. -/
def SpacerClear (m : Memory) : Prop := ∀ x : Sector, (m.readByte (slotAddr x + 3)).getLsbD 7 = false

/-- The power-off baseline of R26: not spinning, the position, the program counter and every slot are zero. -/
def Baseline (s : State) : Prop := s.pc = 0 ∧ s.cs = 0 ∧ s.mem = memClear

/-- The fault register holds no code but those a command can raise (R101): 0, 2, 3, 4, 5. -/
def FaultLegal (c : FaultCode) : Prop := c = 0 ∨ c = 2 ∨ c = 3 ∨ c = 4 ∨ c = 5

/-- `phase` is one R17 allows in this state: pauses counted up to their number, and a search only while Spinning (R80). -/
def PhaseLegal (s : State) : Prop :=
  match s.phase with
  | .idle => True
  | .spinPause i => i ≤ s.params.spinupPausesUs.length
  | .locating _ => s.spinning = true

/-- The invariant of every run. -/
structure UnitInv (s : State) : Prop where
  /-- The memory is in canonical form. -/
  mem_wf : s.mem.wf
  /-- R24. -/
  spacer : SpacerClear s.mem
  /-- R26. -/
  baseline : s.spinning = false → Baseline s
  /-- R101. -/
  fault_legal : FaultLegal s.fault
  /-- A fault is raised at acceptance only, so a Faulted unit has no command in progress (R108). -/
  fault_idle : s.fault ≠ 0 → s.phase = .idle
  /-- R17, R80. -/
  phase_legal : PhaseLegal s
  /-- No response is shown while a command is in progress (R63; log 4). -/
  busy_silent : s.phase ≠ .idle → s.rspValid = false
  /-- The response shown is that of the fault latched, if any (R63, R109). -/
  rsp_status : s.rspValid = true → rspStatus s.rsp = s.fault
  /-- Bit 31 of the response data is 0 (R63). -/
  rsp_spacer : s.rspValid = true → (rspData s.rsp).getLsbD 31 = false
  /-- A Faulted unit shows its fault's response (R63: the last of the run). -/
  fault_shown : s.fault ≠ 0 → s.rspValid = true
  /-- The parameters are as R6 and R7 require. -/
  params_ok : s.params.ok

/-! ### What statements are made of -/

/-- `k` steps of the machine, ending at the first fault or refusal. -/
def run : Nat → State → Host.Outcome State Fault Refusal
  | 0, s => .next s
  | k + 1, s =>
    match step s with
    | .next t => run k t
    | .fault r => .fault r
    | .refused r => .refused r

/-- Every byte of memory reads as before. -/
def MemKept (s t : State) : Prop := ∀ a, t.mem.readByte a = s.mem.readByte a

/-- What stands outside the unit is as before: the caller's words, the random source, the parameters. -/
def OutsideKept (s t : State) : Prop :=
  t.cmd = s.cmd ∧ t.script = s.script ∧ t.rngAnswers = s.rngAnswers ∧ t.drawCount = s.drawCount ∧ t.params = s.params

/-- The command has been taken from the port and the response `(status, data)` is shown (R62, R63). -/
def Answered (t : State) (status : FaultCode) (data : Word) : Prop :=
  t.cmdValid = false ∧ t.rspValid = true ∧ t.rsp = rspWord status data

/-- From `s` to `t` nothing happened but the usage fault `code` (R109): the latch and the response; no register, no byte, no
event, nothing outside. -/
def OnlyFaults (s t : State) (code : FaultCode) : Prop :=
  t.fault = code ∧ Answered t code 0 ∧ MemKept s t ∧ t.pc = s.pc ∧ t.cs = s.cs ∧ t.spinning = s.spinning ∧
    t.phase = s.phase ∧ t.trace = s.trace ∧ OutsideKept s t

/-- The step from `s` is the acceptance of the command `i`, and it passes its checks (R65). -/
def Accepts (s : State) (i : Instr) : Prop :=
  s.ready = true ∧ s.cmdValid = true ∧ decode s.cmd = .command i ∧ check s (.command i) = none

/-- The step from `s` is the last one of a `SPIN_UP` (R71). -/
def FinishesSpinUp (s : State) : Prop :=
  s.fault = 0 ∧ ∃ i, s.phase = .spinPause i ∧ s.params.spinupPausesUs.length ≤ i

/-- The step from `s` is a rotation step (R75): a `ROTATE` accepted, or a `LOCATE` not yet at its target. -/
def Rotates (s : State) : Prop :=
  Accepts s .rotate ∨ (s.fault = 0 ∧ ∃ t, s.phase = .locating t ∧ s.cs ≠ t)

end Sys2Proof.Machine
end

