-- ==== Sys2Proof/WellFormed.lean ====
section
/-! DEFINITION. Which commands a caller may issue: the argument names a position of the track (R55, hazard H5 of R139).
Every command, well-formed or not, has an encoding and is decoded; the range check belongs to execution (R60), where an
ill-formed command raises a usage fault (R103, R105). -/

namespace Sys2Proof

/-- An argument is a position of the track: `arg <= 4095` (R55). -/
def Arg.isPosition (a : Arg) : Bool := decide (a.toNat < Config.nSectors)

/-- The command's argument, where it has one, is in range (R55, R139; log 16). -/
def Instr.wellFormed : Instr → Bool
  | .spinUp => true
  | .rotate => true
  | .locate t => Arg.isPosition t
  | .read s => Arg.isPosition s
  | .write s _ => Arg.isPosition s
  | .wipe => true
  | .pcLoad p => Arg.isPosition p

end Sys2Proof
end

