-- ==== Sys2Proof/Certificates/Slice0/Obligations.lean ====
section
/-! DEFINITION. The statements for the provers. Each docstring names the rule or the section of `spec/` it formalises.
`MemKept`, `OutsideKept`, `Answered` and `OnlyFaults` (Safety.lean) say what is left unchanged. `exec` is the acceptance of
a command and presumes a ready unit (log 14): what a statement says of `exec` in other states is the model's choice. -/

open Sys2Proof Sys2Proof.Machine

/-! ### Encoding -/

/-- Command words written out bit by bit from the field table (30_encoding.md section 2; vectors E3, E6, E12, E13, E14, E16
and others of 95_test_vectors.md) decode to the command they stand for. -/
def Obligations.WordsWrittenFromTheFieldTableDecode : Prop :=
  decode 0x0100123400000000 = .command .spinUp ∧ decode 0x0200FFFFFFFFFFFF = .command .rotate ∧
  decode 0x0300000A00000000 = .command (.locate 10) ∧ decode 0x0400100000000000 = .command (.read 4096) ∧
  decode 0x0500000AFFFFFFFF = .command (.write 10 0xFFFFFFFF) ∧ decode 0x0600000000000000 = .command .wipe ∧
  decode 0x0700006400000000 = .command (.pcLoad 100) ∧ decode 0x0000000000000000 = .illegal .unknownOpcode ∧
  decode 0x0800000000000000 = .illegal .unknownOpcode ∧ decode 0x0401000A00000000 = .illegal .reservedNonzero

/-- Decoding the canonical word of any command, well-formed or not, gives the command back (30_encoding.md). -/
def Obligations.EncodedCommandDecodesToItself : Prop :=
  ∀ i : Instr, decode (encode i) = .command i

/-- A word decodes to a command exactly when its opcode, its zero reserved field and the fields the command uses are the
command's; the fields a command does not use are ignored (30_encoding.md section 3). -/
def Obligations.WordsDecodeByTheirUsedFieldsOnly : Prop :=
  ∀ (w : CmdWord) (i : Instr), decode w = .command i ↔ w &&& usedMask i = encode i

/-- The canonical word as a number, field by field (30_encoding.md section 2 and the table of section 6). -/
def Obligations.CanonicalWordsByArithmetic : Prop :=
  (encode .spinUp).toNat = 1 * 2 ^ 56 ∧ (encode .rotate).toNat = 2 * 2 ^ 56 ∧ (encode .wipe).toNat = 6 * 2 ^ 56 ∧
  ∀ (a : Arg) (v : Word),
    (encode (.locate a)).toNat = 3 * 2 ^ 56 + a.toNat * 2 ^ 32 ∧
    (encode (.read a)).toNat = 4 * 2 ^ 56 + a.toNat * 2 ^ 32 ∧
    (encode (.write a v)).toNat = 5 * 2 ^ 56 + a.toNat * 2 ^ 32 + v.toNat ∧
    (encode (.pcLoad a)).toNat = 7 * 2 ^ 56 + a.toNat * 2 ^ 32

/-- R54, R106: a word is illegal exactly when its reserved field is not zero or its opcode is none of 1…7, and accepting an
word in a ready unit raises `ILLEGAL_COMMAND` (5) exactly when the word is illegal, and then does nothing else. -/
def Obligations.IllegalWordsRaiseIllegalCommand : Prop :=
  (∀ w : CmdWord, (∃ why, decode w = .illegal why) ↔
    (w.toNat / 2 ^ 48 % 256 ≠ 0 ∨ w.toNat / 2 ^ 56 = 0 ∨ 8 ≤ w.toNat / 2 ^ 56)) ∧
  ∀ s : State, s.ready = true → s.cmdValid = true →
    ∃ t, step s = .next t ∧ (t.fault = 5 ↔ ∃ why, decode s.cmd = .illegal why) ∧ (t.fault = 5 → OnlyFaults s t 5)

/-! ### The step -/

/-- A ready unit with a word on the port runs exactly the command the word decodes to (30_encoding.md section 5); so does the
step after `withFetchWord`. -/
def Obligations.StepRunsTheDecodedCommand : Prop :=
  (∀ (s : State) (i : Instr), s.ready = true → s.cmdValid = true → decode s.cmd = .command i → step s = exec i s) ∧
  ∀ (s : State) (n w : Nat) (i : Instr), decodeTableWord n w = some i →
    step (s.withFetchWord n w) = exec i (s.withFetchWord n w)

/-- The unit does nothing but present the caller's next word while ready with an empty port, and nothing at all when the
caller has none (the model's account of the caller, log 1 and log 6). -/
def Obligations.ReadyUnitTakesTheCallersNextWord : Prop :=
  ∀ s : State, s.ready = true → s.cmdValid = false →
    (s.script = [] → step s = .next s) ∧
    ∀ w ws, s.script = w :: ws → step s = .next { s with cmd := w, cmdValid := true, script := ws }

/-- While a command is in progress the port is held: the word on it is neither taken nor dropped, nor is another presented,
and no response is given before the command's last step (30_encoding.md section 4). That the caller never withdraws the
waiting word is the model's choice (log 1), and so is that RSP and RSP_VALID stand still meanwhile (log 4). -/
def Obligations.BusyUnitHoldsThePort : Prop :=
  ∀ s : State, s.fault = 0 → s.phase ≠ .idle →
    ∃ t, step s = .next t ∧ t.cmd = s.cmd ∧ t.cmdValid = s.cmdValid ∧ t.script = s.script ∧ t.fault = 0 ∧
      (t.phase ≠ .idle → t.rsp = s.rsp ∧ t.rspValid = s.rspValid) ∧
      (t.phase = .idle → t.rspValid = true ∧ t.rsp = rspWord 0 0)

/-! ### Reset and invariants -/

/-- R131: after RESET every slot reads 0, every register is 0, the unit is Unpowered, READY is 1 and the trace is empty,
whatever the parameters. -/
def Obligations.ResetLeavesTheResetValues : Prop :=
  ∀ p : Config.Params, (∀ x, memRead (State.resetWith p).mem x = 0) ∧ (State.resetWith p).pc = 0 ∧
    (State.resetWith p).cs = 0 ∧ (State.resetWith p).spinning = false ∧ (State.resetWith p).fault = 0 ∧
    (State.resetWith p).phase = .idle ∧ lifecycle (State.resetWith p) = .unpowered ∧
    outReady (State.resetWith p) = 1 ∧ (State.resetWith p).trace = []

/-- RESET takes any unit with no command in progress, a Faulted one too, to the reset state, and leaves what stands outside
the unit; during a command it is given no meaning (70_reset_and_hazards.md section 1; the outside is the model's, log 11). -/
def Obligations.ResetClearsFaulted : Prop :=
  ∀ s : State,
    (s.phase = .idle → ∃ t, applyReset s = .next t ∧ unitOf t = unitOf (State.resetWith s.params) ∧ t.phase = .idle ∧
      t.trace = [] ∧ t.ready = true ∧ OutsideKept s t) ∧
    (s.phase ≠ .idle → applyReset s = .refused .resetWhileBusy)

/-- The invariant holds after RESET, for all parameters R6 and R7 allow and for the suggested ones (10_state.md section 8). -/
def Obligations.ResetMeetsTheInvariant : Prop :=
  (∀ p : Config.Params, p.ok → UnitInv (State.resetWith p)) ∧ Config.suggestedParams.ok ∧ UnitInv State.reset

/-- Every step that answers a next state keeps the invariant: canonical memory, clear spacer bits, the Unpowered baseline,
a legal fault code and phase, the response port in agreement (10_state.md section 8). -/
def Obligations.EveryStepKeepsTheInvariant : Prop :=
  ∀ s t : State, UnitInv s → step s = .next t → UnitInv t

/-- R24, R26: in every state a run from RESET reaches, whatever the caller presents and the random source answers, bit 31 of
every slot is stored as 0, and an unspun unit has `pc`, `cs` and every slot zero. -/
def Obligations.ReachableStatesKeepTheBaseline : Prop :=
  ∀ (p : Config.Params) (ws : List CmdWord) (rs : List Sector) (d n : Nat) (t : State), p.ok →
    run n { State.resetWith p with script := ws, rngAnswers := rs, drawCount := d } = .next t →
    SpacerClear t.mem ∧ (∀ x, (memRead t.mem x).getLsbD 31 = false) ∧
    (t.spinning = false → t.pc = 0 ∧ t.cs = 0 ∧ ∀ x, memRead t.mem x = 0)

/-- Two memories in canonical form that read alike at every address are the same data (log 8). -/
def Obligations.CanonicalMemoriesThatReadAlikeAreEqual : Prop :=
  ∀ m n : Memory, m.wf → n.wf → (∀ a, m.readByte a = n.readByte a) → m = n

/-! ### Position arithmetic -/

/-- R34: the rotational distance is `(t - c) mod 4096`, with the laws the rule lists, the mean of 2047.5 as the sum
`4096 * 2047.5 = 8386560` over all positions of either end. -/
def Obligations.RotationalDistanceLaws : Prop :=
  ∀ c t : Sector,
    (sectorDist c t : Int) = ((t.toNat : Int) - c.toNat) % 4096 ∧ sectorDist c t ≤ 4095 ∧ sectorDist c c = 0 ∧
    (c.toNat ≤ t.toNat → sectorDist c t = t.toNat - c.toNat) ∧
    (t.toNat < c.toNat → (sectorDist c t : Int) = (t.toNat : Int) - c.toNat + 4096) ∧
    sectorDist c (c + 1) = 1 ∧ sectorDist c (c - 1) = 4095 ∧ (c ≠ t → sectorDist c t + sectorDist t c = 4096) ∧
    (c.toNat + sectorDist c t) % 4096 = t.toNat ∧
    ((List.range 4096).map (fun x => sectorDist c (BitVec.ofNat 12 x))).sum = 8386560 ∧
    ((List.range 4096).map (fun x => sectorDist (BitVec.ofNat 12 x) t)).sum = 8386560

/-! ### The commands -/

/-- `SPIN_UP` accepted by a ready unit, Unpowered or Spinning, never faults and begins its pauses; nothing else changes
(40_spin_up.md). The model's choices: that RSP_VALID falls at acceptance while RSP is kept (log 4), and what `exec` answers
in a state that is not ready, where the spec accepts no command (log 14). -/
def Obligations.SpinUpIsAlwaysAccepted : Prop :=
  ∀ s : State, ∃ t, exec .spinUp s = .next t ∧ t.phase = .spinPause 0 ∧ t.cmdValid = false ∧ t.rspValid = false ∧
    t.rsp = s.rsp ∧ t.fault = s.fault ∧ t.pc = s.pc ∧ t.cs = s.cs ∧ t.spinning = s.spinning ∧ t.trace = s.trace ∧
    MemKept s t ∧ OutsideKept s t

/-- `ROTATE` in a Spinning unit advances the head by one, 4095 to 0, requests one quantum and changes nothing else; not
spinning it faults with 2 and changes nothing (41_rotation.md, ROTATE). -/
def Obligations.RotateAdvancesTheHeadByOne : Prop :=
  ∀ s : State,
    (s.spinning = true → ∃ t, exec .rotate s = .next t ∧ t.cs.toNat = (s.cs.toNat + 1) % 4096 ∧
      t.trace = s.trace ++ [.rotate t.cs, .delay s.params.tSectorUs] ∧ Answered t 0 0 ∧ MemKept s t ∧
      t.pc = s.pc ∧ t.spinning = true ∧ t.fault = s.fault ∧ t.phase = s.phase ∧ OutsideKept s t) ∧
    (s.spinning = false → ∃ t, exec .rotate s = .next t ∧ OnlyFaults s t 2)

/-- `LOCATE t` in a Spinning unit with `t` in range begins the search and changes nothing else; not spinning it faults with 2,
else out of range with 3, and changes nothing (41_rotation.md, LOCATE). That RSP_VALID falls at acceptance while RSP is kept
is the model's choice (log 4). -/
def Obligations.LocateBeginsTheSearch : Prop :=
  ∀ (s : State) (a : Arg),
    (s.spinning = true → a.toNat ≤ 4095 → ∃ t x, exec (.locate a) s = .next t ∧ t.phase = .locating x ∧
      x.toNat = a.toNat ∧ t.cmdValid = false ∧ t.rspValid = false ∧ t.rsp = s.rsp ∧ t.fault = s.fault ∧ t.pc = s.pc ∧
      t.cs = s.cs ∧ t.spinning = true ∧ t.trace = s.trace ∧ MemKept s t ∧ OutsideKept s t) ∧
    (s.spinning = true → 4095 < a.toNat → ∃ t, exec (.locate a) s = .next t ∧ OnlyFaults s t 3) ∧
    (s.spinning = false → ∃ t, exec (.locate a) s = .next t ∧ OnlyFaults s t 2)

/-- `READ s` in a Spinning unit with `s` in range responds with the slot, bit 31 clear, and changes nothing; a slot never
written reads 0; not spinning it faults with 2, else out of range with 3 (42_access.md, READ). -/
def Obligations.ReadAnswersTheSlotAndChangesNothing : Prop :=
  ∀ (s : State) (a : Arg),
    (s.spinning = true → a.toNat ≤ 4095 → ∃ t, exec (.read a) s = .next t ∧
      Answered t 0 (memRead s.mem (sectorOf a) &&& 0x7FFFFFFF) ∧ (rspData t.rsp).getLsbD 31 = false ∧
      ((∀ b, slotAddr (sectorOf a) ≤ b → b < slotAddr (sectorOf a) + 4 → s.mem.readByte b = 0) → rspData t.rsp = 0) ∧
      MemKept s t ∧ t.pc = s.pc ∧ t.cs = s.cs ∧ t.spinning = true ∧ t.fault = s.fault ∧ t.phase = s.phase ∧
      t.trace = s.trace ∧ OutsideKept s t) ∧
    (s.spinning = true → 4095 < a.toNat → ∃ t, exec (.read a) s = .next t ∧ OnlyFaults s t 3) ∧
    (s.spinning = false → ∃ t, exec (.read a) s = .next t ∧ OnlyFaults s t 2)

/-- `WRITE s, v` in a Spinning unit with `s` in range stores `v` with bit 31 cleared in slot `s`, every other byte and slot as
before, and requests no delay; not spinning it faults with 2, else out of range with 3, and stores nothing (42_access.md,
WRITE). The canonical form of memory is an invariant (`EveryStepKeepsTheInvariant`). -/
def Obligations.WriteStoresTheNormalizedWord : Prop :=
  ∀ (s : State) (a : Arg) (v : Word),
    (s.mem.wf → s.spinning = true → a.toNat ≤ 4095 → ∃ t, exec (.write a v) s = .next t ∧
      memRead t.mem (sectorOf a) = v &&& 0x7FFFFFFF ∧
      (∀ y, y ≠ sectorOf a → memRead t.mem y = memRead s.mem y) ∧
      (∀ b, b < slotAddr (sectorOf a) ∨ slotAddr (sectorOf a) + 4 ≤ b → t.mem.readByte b = s.mem.readByte b) ∧
      Answered t 0 0 ∧ t.pc = s.pc ∧ t.cs = s.cs ∧ t.spinning = true ∧ t.fault = s.fault ∧ t.phase = s.phase ∧
      t.trace = s.trace ∧ OutsideKept s t) ∧
    (s.spinning = true → 4095 < a.toNat → ∃ t, exec (.write a v) s = .next t ∧ OnlyFaults s t 3) ∧
    (s.spinning = false → ∃ t, exec (.write a v) s = .next t ∧ OnlyFaults s t 2)

/-- `WIPE` accepted by a ready unit, Unpowered or Spinning, zeroes every slot, `pc` and `cs`, and leaves the unit Unpowered,
its own state that after RESET; the phase, the trace and the outside stay (43_wipe.md). In a state that is not ready, a
Faulted one among them, the spec accepts no `WIPE`; what `exec` answers there, the latch kept, is the model's choice
(log 14). -/
def Obligations.WipeZeroesEverything : Prop :=
  ∀ s : State, ∃ t, exec .wipe s = .next t ∧ (s.ready = true → lifecycle t = .unpowered) ∧ (∀ a, t.mem.readByte a = 0) ∧ (∀ x, memRead t.mem x = 0) ∧ t.pc = 0 ∧
    t.cs = 0 ∧ t.spinning = false ∧ t.fault = s.fault ∧ t.phase = s.phase ∧ t.trace = s.trace ∧ Answered t 0 0 ∧
    OutsideKept s t ∧ (s.fault = 0 → unitOf t = unitOf (State.resetWith s.params))

/-- R94: `WIPE` is accepted in Unpowered as well and then changes nothing in the unit, and from either lifecycle state it
leaves `is_spinning` false and `program_counter`, `current_sector` and every slot zero. -/
def Obligations.WipeInUnpoweredChangesNothing : Prop :=
  ∀ s : State, UnitInv s → ∃ t, exec .wipe s = .next t ∧
    (s.spinning = false → unitOf t = unitOf s ∧ t.phase = s.phase ∧ t.trace = s.trace) ∧
    t.spinning = false ∧ t.pc = 0 ∧ t.cs = 0 ∧ ∀ x, memRead t.mem x = 0

/-- `PC_LOAD p` in a Spinning unit with `p` in range sets `program_counter` and changes nothing else; not spinning it faults
with 2, else out of range with 4, and changes nothing (44_pc_load.md). -/
def Obligations.PcLoadSetsTheProgramCounter : Prop :=
  ∀ (s : State) (p : Arg),
    (s.spinning = true → p.toNat ≤ 4095 → ∃ t, exec (.pcLoad p) s = .next t ∧ t.pc.toNat = p.toNat ∧ Answered t 0 0 ∧
      MemKept s t ∧ t.cs = s.cs ∧ t.spinning = true ∧ t.fault = s.fault ∧ t.phase = s.phase ∧ t.trace = s.trace ∧
      OutsideKept s t) ∧
    (s.spinning = true → 4095 < p.toNat → ∃ t, exec (.pcLoad p) s = .next t ∧ OnlyFaults s t 4) ∧
    (s.spinning = false → ∃ t, exec (.pcLoad p) s = .next t ∧ OnlyFaults s t 2)

/-- R86: the value a `READ` returns never depends on the head position; the same holds of what a `WRITE` does: moving the
head before either is the same as moving it after. -/
def Obligations.AccessIgnoresTheHeadPosition : Prop :=
  ∀ (s : State) (a : Arg) (v : Word) (c : Sector),
    (∃ t, exec (.read a) s = .next t ∧ exec (.read a) { s with cs := c } = .next { t with cs := c }) ∧
    ∃ t, exec (.write a v) s = .next t ∧ exec (.write a v) { s with cs := c } = .next { t with cs := c }

/-! ### The multi-step commands to their end -/

/-- R71: from acceptance `SPIN_UP` takes exactly one step per pause and a last one. After `i` pauses only the phase and the
trace have changed; the last step, atomically, makes the unit Spinning with `pc = 0` and the head at the one drawn position,
and gives the response. Memory is kept throughout. The model's choices: RSP_VALID is 0 during the pauses (log 4), and the
draw uses up one entry of the source's answers and one number (log 3). -/
def Obligations.SpinUpRunsItsPausesThenFinishes : Prop :=
  ∀ s : State, s.ready = true → ∃ b, exec .spinUp s = .next b ∧
    (∀ i, i ≤ s.params.spinupPausesUs.length → ∃ t, run i b = .next t ∧ t.phase = .spinPause i ∧
      t.trace = s.trace ++ (s.params.spinupPausesUs.take i).map .delay ∧ t.pc = s.pc ∧ t.cs = s.cs ∧
      t.spinning = s.spinning ∧ t.fault = 0 ∧ t.rspValid = false ∧ MemKept s t ∧ OutsideKept s t) ∧
    ∃ u, run (s.params.spinupPausesUs.length + 1) b = .next u ∧ u.spinning = true ∧ u.pc = 0 ∧ u.cs = drawValue s ∧
      u.fault = 0 ∧ u.phase = .idle ∧ u.ready = true ∧ Answered u 0 0 ∧
      u.trace = s.trace ++ s.params.spinupPausesUs.map .delay ∧ MemKept s u ∧ u.cmd = s.cmd ∧ u.script = s.script ∧
      u.params = s.params ∧ u.rngAnswers = s.rngAnswers.tail ∧ u.drawCount = s.drawCount + 1

/-- Every position in 0…4095 can be drawn: whatever position the random source answers, the head is there when `SPIN_UP` ends
(60_exceptions.md section 5, random source). -/
def Obligations.SpinUpEndsAtAnyAnsweredPosition : Prop :=
  ∀ (s : State) (r : Sector) (rs : List Sector), s.ready = true → ∃ b u,
    exec .spinUp { s with rngAnswers := r :: rs } = .next b ∧
    run (s.params.spinupPausesUs.length + 1) b = .next u ∧ u.cs = r ∧ u.pc = 0 ∧ u.spinning = true ∧ u.rngAnswers = rs

/-- R81: from `Locating(t)` with the head at `c`, exactly `k = (t - c) mod 4096` rotation steps follow, the position after
`j` of them being `(c + j) mod 4096`, and then one completing step; `k <= 4095`, and the head ends at `t`. Nothing else in
the unit changes on the way, and the target under the head costs nothing. The model's choices, of which R81 says nothing:
RSP and RSP_VALID stand still during the search (log 4), and the word waiting on the port is not withdrawn (log 1). -/
def Obligations.LocatingReachesTheTarget : Prop :=
  ∀ (s : State) (t : Sector), s.fault = 0 → s.phase = .locating t →
    sectorDist s.cs t ≤ 4095 ∧
    (∀ j, j ≤ sectorDist s.cs t → ∃ v, run j s = .next v ∧ v.phase = .locating t ∧ v.cs.toNat = (s.cs.toNat + j) % 4096 ∧
      v.trace = s.trace ++ rotationEvents s.params.tSectorUs j s.cs ∧ rotations v.trace = rotations s.trace + j ∧
      v.pc = s.pc ∧ v.spinning = s.spinning ∧ v.fault = 0 ∧ v.rspValid = s.rspValid ∧ v.rsp = s.rsp ∧
      v.cmdValid = s.cmdValid ∧ MemKept s v ∧ OutsideKept s v) ∧
    ∃ u, run (sectorDist s.cs t + 1) s = .next u ∧ u.cs = t ∧ u.phase = .idle ∧ u.rspValid = true ∧ u.rsp = rspWord 0 0 ∧
      u.trace = s.trace ++ rotationEvents s.params.tSectorUs (sectorDist s.cs t) s.cs ∧ u.pc = s.pc ∧
      u.spinning = s.spinning ∧ u.fault = 0 ∧ u.cmdValid = s.cmdValid ∧ MemKept s u ∧ OutsideKept s u

/-- A `LOCATE t` accepted by a Spinning unit with `t` in range brings `t` under the head at a cost proportional to the
rotational distance and to nothing else: that many rotations, that many quanta requested, never more than 4095
(41_rotation.md, LOCATE and latency bounds). -/
def Obligations.LocateCostsTheRotationalDistance : Prop :=
  ∀ (s : State) (a : Arg) (k : Nat), s.ready = true → s.spinning = true → a.toNat ≤ 4095 →
    (k : Int) = ((a.toNat : Int) - s.cs.toNat) % 4096 →
    k ≤ 4095 ∧ ∃ b u, exec (.locate a) s = .next b ∧ run (k + 1) b = .next u ∧ u.cs.toNat = a.toNat ∧
      u.ready = true ∧ Answered u 0 0 ∧ rotations u.trace = rotations s.trace + k ∧
      requested u.trace = requested s.trace + k * s.params.tSectorUs ∧ u.pc = s.pc ∧ u.spinning = true ∧ MemKept s u ∧
      OutsideKept s u ∧ (k = 0 → u.trace = s.trace ∧ u.cs = s.cs)

/-- R78: `k` rotation steps advance the head by `k` modulo 4096 with `2 k` events, and 4096 `ROTATE` commands return it to
where it was: any number `k` of `ROTATE` words, however their ignored fields are filled, run by a Spinning unit. That each
word of the caller's script takes a presenting step before its acceptance, `2 k` steps in all, is the model's choice
(log 1). -/
def Obligations.RotatesCloseTheRevolution : Prop :=
  ∀ (k : Nat) (s : State) (ws rest : List CmdWord), s.ready = true → s.spinning = true → s.cmdValid = false →
    ws.length = k → (∀ w ∈ ws, decode w = .command .rotate) → s.script = ws ++ rest →
    ∃ t, run (2 * k) s = .next t ∧ t.cs.toNat = (s.cs.toNat + k) % 4096 ∧ (k = 4096 → t.cs = s.cs) ∧
      t.trace = s.trace ++ rotationEvents s.params.tSectorUs k s.cs ∧
      (rotationEvents s.params.tSectorUs k s.cs).length = 2 * k ∧ t.script = rest ∧ t.ready = true ∧
      t.spinning = true ∧ t.pc = s.pc ∧ MemKept s t

/-- The small-step machine and the big-step function agree: for every ready unit with any word on its port, legal or not, the
machine completes the command in the number of steps the spec counts, in exactly the state, response and events of the big
step (30_encoding.md, big-step view). -/
def Obligations.SmallStepsAgreeWithTheBigStep : Prop :=
  ∀ s : State, s.ready = true → s.cmdValid = true →
    run (stepsOf s (decode s.cmd)) s = .next (completed s (decode s.cmd))

/-- R144: how many requests each command makes of the delay device and for how long in all, for every word a ready unit
accepts: one per pause and their sum for `SPIN_UP`, one quantum for `ROTATE`, one quantum per sector of distance for
`LOCATE`, and none for the others and for a command that faults. -/
def Obligations.RequestedDelayOfEachCommand : Prop :=
  ∀ s : State, s.ready = true → s.cmdValid = true →
    ∃ t n d, run (stepsOf s (decode s.cmd)) s = .next t ∧ t.ready = decide (t.fault = 0) ∧
      delays t.trace = delays s.trace + n ∧ requested t.trace = requested s.trace + d ∧
      (∀ f, check s (decode s.cmd) = some f → n = 0 ∧ d = 0 ∧ t.trace = s.trace) ∧
      (check s (decode s.cmd) = none → ∀ i, decode s.cmd = .command i →
        (i = .spinUp → n = s.params.spinupPausesUs.length ∧ d = s.params.spinupPausesUs.sum) ∧
        (i = .rotate → n = 1 ∧ d = s.params.tSectorUs) ∧
        (∀ a, i = .locate a → n = sectorDist s.cs (sectorOf a) ∧
          d = sectorDist s.cs (sectorOf a) * s.params.tSectorUs) ∧
        (∀ a, i = .read a → n = 0 ∧ d = 0) ∧ (∀ a v, i = .write a v → n = 0 ∧ d = 0) ∧
        (i = .wipe → n = 0 ∧ d = 0) ∧ ∀ p, i = .pcLoad p → n = 0 ∧ d = 0)

/-- An aligned read (`AREAD s`, that is `LOCATE s` and then `READ s`, issued by the caller to a ready unit) of sector `s` from
head position `c` requests exactly `((s - c) mod 4096) * T_SECTOR_US`, is aligned, and answers the slot
(70_reset_and_hazards.md section 4; 30_encoding.md section 6). The model's choices: the two presenting steps among the
`k + 5` (log 1), and that issuing a line puts its words on the script (`issueLine`, log 17). -/
def Obligations.AlignedReadCostsItsRotationalDistance : Prop :=
  ∀ (s : State) (a : Arg) (k : Nat), s.ready = true → s.spinning = true → s.cmdValid = false → s.script = [] →
    a.toNat ≤ 4095 → (k : Int) = ((a.toNat : Int) - s.cs.toNat) % 4096 →
    ∃ b t, issueLine (.aread a) s = .next b ∧ run (k + 5) b = .next t ∧ t.ready = true ∧ t.rspValid = true ∧
      t.rsp = rspWord 0 (memRead s.mem (sectorOf a)) ∧ aligned t (sectorOf a) = true ∧
      requested t.trace = requested s.trace + k * s.params.tSectorUs ∧ t.pc = s.pc ∧ MemKept s t

/-- A command in progress always completes: from every state that meets the invariant with no fault latched, the unit is ready
again within as many steps as a revolution or the pauses take, and no step on the way stops (10_state.md section 5). -/
def Obligations.EveryCommandInProgressCompletes : Prop :=
  ∀ s : State, UnitInv s → s.fault = 0 → ∃ k t, k ≤ max 4096 (s.params.spinupPausesUs.length + 1) ∧ run k s = .next t ∧
    t.ready = true

/-! ### Faults -/

/-- R107: the order of the checks. Accepting a word latches exactly the code of the first failing check, read off the word's
bits: legality, then the Spinning state for the opcodes 2, 3, 4, 5 and 7, then the sector range for 3, 4 and 5, then the
program-counter range for 7, else 0. -/
def Obligations.ChecksAreMadeInOrder : Prop :=
  ∀ (s : State) (op rsv arg : Nat), s.ready = true → s.cmdValid = true →
    op = s.cmd.toNat / 2 ^ 56 → rsv = s.cmd.toNat / 2 ^ 48 % 256 → arg = s.cmd.toNat / 2 ^ 32 % 65536 →
    ∃ t, step s = .next t ∧ t.fault =
      (if rsv ≠ 0 ∨ op = 0 ∨ 7 < op then 5
       else if (op = 2 ∨ op = 3 ∨ op = 4 ∨ op = 5 ∨ op = 7) ∧ s.spinning = false then 2
       else if (op = 3 ∨ op = 4 ∨ op = 5) ∧ 4095 < arg then 3
       else if op = 7 ∧ 4095 < arg then 4
       else 0)

/-- In a Spinning unit a command raises no fault exactly when it is well-formed: an argument above 4095 is fatal, never
wrapped (70_reset_and_hazards.md, hazard H5). -/
def Obligations.WellFormedCommandsRaiseNoFault : Prop :=
  ∀ (s : State) (i : Instr), s.fault = 0 → s.spinning = true →
    ∃ t, exec i s = .next t ∧ (t.fault = 0 ↔ i.wellFormed = true)

/-- R108, R109: a fault arises only at the acceptance of a command by a ready unit, never inside a `LOCATE` or `SPIN_UP`, and
is precise: the state is the one before the command, plus the fault code and its response. From then on the unit is Faulted:
READY 0, FAULT 1, FAULT_CODE the code. That no step follows is the model's rendering (log 5) of "never accepted; the run has
gone wrong" (93_implementation_defined.md, V7): the two rules say only that no command is accepted again. -/
def Obligations.FaultsArePreciseAndFinal : Prop :=
  ∀ s t : State, step s = .next t → t.fault ≠ 0 →
    s.ready = true ∧ s.cmdValid = true ∧ OnlyFaults s t t.fault ∧ lifecycle t = .faulted ∧ outReady t = 0 ∧
      outFault t = 1 ∧ outFaultCode t = t.fault ∧ ∀ u, step t ≠ .next u

/-- Every step of a unit with no fault latched answers a next state; a Faulted unit stops with its code, the model's rendering
of "stuck" (60_exceptions.md section 2; log 5). -/
def Obligations.OnlyAFaultedUnitStops : Prop :=
  ∀ s : State, (s.fault = 0 → ∃ t, step s = .next t) ∧ (s.fault ≠ 0 → step s = .fault (.halted s.fault))

/-- A response ends its command: whenever one is shown after a step, a new one or the previous one still (log 4), the unit is
ready again if its status is 0, and with another status it is the last of the run: no step follows (log 5)
(30_encoding.md section 4, response port). -/
def Obligations.ResponsesEndTheirCommands : Prop :=
  ∀ s t : State, UnitInv s → step s = .next t → t.rspValid = true →
    (rspStatus t.rsp = 0 → t.ready = true) ∧ (rspStatus t.rsp ≠ 0 → t.fault = rspStatus t.rsp ∧ ∀ u, step t ≠ .next u)

/-! ### Who writes what -/

/-- R25: `current_sector` changes only by a rotation step, to `(cs + 1) mod 4096`, at the last step of `SPIN_UP`, to the drawn
value, and at `WIPE` and RESET, to 0. -/
def Obligations.HeadMovesOnlyByRotationSpinUpOrWipe : Prop :=
  (∀ s t : State, step s = .next t →
    t.cs = s.cs ∨
    (Rotates s ∧ t.cs.toNat = (s.cs.toNat + 1) % 4096 ∧
      t.trace = s.trace ++ [.rotate t.cs, .delay s.params.tSectorUs]) ∨
    (FinishesSpinUp s ∧ t.cs = drawValue s) ∨ (Accepts s .wipe ∧ t.cs = 0)) ∧
  ∀ s t : State, applyReset s = .next t → t.cs = 0

/-- R97: no step changes `program_counter` but the last of a `SPIN_UP` and a `WIPE`, both to 0, and a `PC_LOAD`, to its
argument; RESET sets it to 0. -/
def Obligations.ProgramCounterChangesOnlyBySpinUpWipePcLoad : Prop :=
  (∀ s t : State, step s = .next t →
    t.pc = s.pc ∨ (FinishesSpinUp s ∧ t.pc = 0) ∨ (Accepts s .wipe ∧ t.pc = 0) ∨
    ∃ p : Arg, Accepts s (.pcLoad p) ∧ t.pc.toNat = p.toNat) ∧
  ∀ s t : State, applyReset s = .next t → t.pc = 0

/-- A slot changes only by a `WRITE` to its sector, to the normalised value, or by `WIPE`, to 0; `SPIN_UP`, a restart too,
`ROTATE`, `LOCATE`, `READ`, `PC_LOAD` and a fault never change one (20_memory.md, retention). -/
def Obligations.SlotsChangeOnlyByWriteOrWipe : Prop :=
  ∀ (s t : State) (x : Sector), s.mem.wf → step s = .next t →
    memRead t.mem x = memRead s.mem x ∨ (Accepts s .wipe ∧ memRead t.mem x = 0) ∨
    ∃ a v, Accepts s (.write a v) ∧ a.toNat = x.toNat ∧ memRead t.mem x = v &&& 0x7FFFFFFF

/-- The lifecycle (10_state.md section 4): a step leaves Unpowered only by the completion of a `SPIN_UP` or by a usage fault,
and Spinning only by `WIPE` or by a usage fault; it never leaves Faulted. -/
def Obligations.LifecycleMovesAsTheStateMachine : Prop :=
  ∀ s t : State, step s = .next t →
    lifecycle s ≠ .faulted ∧
    (lifecycle s = .unpowered → lifecycle t = .spinning → FinishesSpinUp s) ∧
    (lifecycle s = .spinning → lifecycle t = .unpowered → Accepts s .wipe) ∧
    (lifecycle t = .faulted → s.ready = true ∧ s.cmdValid = true ∧ ∃ f, check s (decode s.cmd) = some f)

/-- R89: a `READ s` returns the value of the latest `WRITE s`, bit 31 cleared, whatever steps came between that accept no
`WRITE` of that sector and no `WIPE`; in particular directly after it (`n = 0`). -/
def Obligations.ReadReturnsTheLatestWrite : Prop :=
  ∀ (s t u : State) (a : Arg) (v : Word) (n : Nat), s.mem.wf → s.spinning = true → a.toNat ≤ 4095 →
    exec (.write a v) s = .next t → run n t = .next u →
    (∀ m w, m < n → run m t = .next w → ¬ Accepts w .wipe ∧ ∀ v', ¬ Accepts w (.write a v')) → u.spinning = true →
    ∃ z, exec (.read a) u = .next z ∧ Answered z 0 (v &&& 0x7FFFFFFF)

/-- No rule about state depends on a duration: two machines alike but for `T_SECTOR_US`, `T_REV_US`, the durations of the
pauses (as many of them) and the trace take steps alike but for them, with as many rotations and as many delay requests
(00_scope.md section 4; 70_reset_and_hazards.md section 4). -/
def Obligations.DurationsDoNotAffectState : Prop :=
  ∀ (s t : State) (q r : Nat) (ps : List Nat) (tr : List Event), ps.length = s.params.spinupPausesUs.length →
    step s = .next t →
    ∃ tr', step { s with trace := tr, params := { tSectorUs := q, tRevUs := r, spinupPausesUs := ps } } =
      .next { t with trace := tr', params := { tSectorUs := q, tRevUs := r, spinupPausesUs := ps } } ∧
      rotations tr' + rotations s.trace = rotations tr + rotations t.trace ∧
      delays tr' + delays s.trace = delays tr + delays t.trace

/-! ### The caller's text -/

/-- A `RESET` line means the reset input, not a command: in a unit with no command in progress, a Faulted one too, it leaves
the reset state with nothing of the earlier run waiting, and during a command it is refused. Any other line only adds the
words of its expansion (30_encoding.md section 6; that the words waiting are withdrawn at a `RESET` line is log 17, the
parameters and the random source kept and the refusal log 11). -/
def Obligations.ResetLineIsTheResetInput : Prop :=
  readLine ['R', 'E', 'S', 'E', 'T'] = some .reset ∧
  ∀ s : State,
    (s.phase = .idle → ∃ t, issueLine .reset s = .next t ∧ unitOf t = unitOf (State.resetWith s.params) ∧
      t.phase = .idle ∧ t.trace = [] ∧ t.ready = true ∧ t.cmdValid = false ∧ t.script = [] ∧ t.params = s.params ∧
      t.rngAnswers = s.rngAnswers ∧ t.drawCount = s.drawCount) ∧
    (s.phase ≠ .idle → issueLine .reset s = .refused .resetWhileBusy) ∧
    ∀ l, l ≠ .reset → issueLine l s = .next { s with script := s.script ++ (expandLine s.pc l).map encode }

/-- Booting by the caller's text: after a `RESET` line and a `SPIN_UP` line issued to any unit with no command in progress,
a Faulted one too, the unit is Spinning and ready with `pc = 0`, every slot zero, the head at the drawn position and the
pauses requested (70_reset_and_hazards.md section 2). The presenting step among the `n + 3` is the model's (log 1), as is
the issuing of lines (log 17). -/
def Obligations.ResetLineThenSpinUpLineBoots : Prop :=
  ∀ s : State, s.phase = .idle → ∃ r b t, issueLine .reset s = .next r ∧ issueLine (.command .spinUp) r = .next b ∧
    run (s.params.spinupPausesUs.length + 3) b = .next t ∧ t.ready = true ∧ t.spinning = true ∧ t.pc = 0 ∧
    t.cs = drawValue s ∧ (∀ x, memRead t.mem x = 0) ∧ t.trace = s.params.spinupPausesUs.map .delay ∧ t.script = [] ∧
    Answered t 0 0

/-- Whatever words the caller has issued, the machine comes to the end of them within the model's bound: it has run them all
and is ready with an empty port, or a usage fault has stopped the unit (10_state.md section 5; 60_exceptions.md section 2;
the counting of steps is the model's, log 1). -/
def Obligations.IssuedWordsRunToTheirEnd : Prop :=
  ∀ s : State, UnitInv s → ∃ t, settle (settleBound s) s = .next t ∧
    (t.fault = 0 → t.ready = true ∧ t.cmdValid = false ∧ t.script = [])
end

