-- ==== Sys2Proof/Laws/Caller.lean ====
section
/-! SUPPORT. What issuing a line and settling can do, for the provers to cite: each operation of Machine/Caller.lean once. -/

namespace Sys2Proof.Machine

@[simp] theorem addWords_script (ws : List CmdWord) (s : State) : (addWords ws s).script = s.script ++ ws := rfl
@[simp] theorem withdrawWords_cmdValid (s : State) : (withdrawWords s).cmdValid = false := rfl
@[simp] theorem withdrawWords_script (s : State) : (withdrawWords s).script = [] := rfl
@[simp] theorem withdrawWords_phase (s : State) : (withdrawWords s).phase = s.phase := rfl

@[simp] theorem andThen_next (t : State) (f : State → Host.Outcome State Fault Refusal) : andThen (.next t) f = f t := rfl

/-- RESET of a unit with no command in progress: the state of R131 and the outside as it was (log 11). -/
theorem applyReset_idle (s : State) (h : s.phase = .idle) :
    applyReset s = .next { State.resetWith s.params with
      cmd := s.cmd, cmdValid := s.cmdValid, script := s.script, rngAnswers := s.rngAnswers, drawCount := s.drawCount } :=
  if_pos h

/-- RESET during a command has no meaning (V8). -/
theorem applyReset_busy (s : State) (h : s.phase ≠ .idle) : applyReset s = .refused .resetWhileBusy := if_neg h

/-- A `RESET` line is the reset input (R67). -/
theorem issueLine_reset (s : State) : issueLine .reset s = applyReset (withdrawWords s) := if_pos rfl

/-- Any other line adds the words of its expansion to the script (R67, R68). -/
theorem issueLine_words (l : SourceLine) (s : State) (h : l ≠ .reset) :
    issueLine l s = .next (addWords ((expandLine (outPc s) l).map encode) s) := if_neg h

/-- A settled state stays as it is. -/
theorem settle_settled (k : Nat) (s : State) (h : settled s = true) : settle k s = .next s := by
  cases k with
  | zero => rfl
  | succ k => exact if_pos h

/-- A state that is not settled takes a step. -/
theorem settle_step (k : Nat) (s t : State) (h : settled s = false) (hs : step s = .next t) :
    settle (k + 1) s = settle k t := by
  simp [settle, h, hs]

/-- A unit is settled exactly when it is Faulted, or is ready with an empty port and an empty script. -/
theorem settled_iff (s : State) :
    settled s = true ↔ s.fault ≠ 0 ∨ (s.ready = true ∧ s.cmdValid = false ∧ s.script = []) := by
  simp [settled, and_assoc]

end Sys2Proof.Machine
end

