-- ==== Sys2Proof/Laws/Decode.lean ====
section
/-! SUPPORT. The fields of a command word made by `cmdWord`, and of one given by its arithmetic. -/

namespace Sys2Proof

/-- The bits of a word made from its fields. -/
theorem getLsbD_cmdWord (op : BitVec 8) (arg : Arg) (data : Word) (j : Nat) :
    (cmdWord op arg data).getLsbD j =
      if j < 32 then data.getLsbD j
      else if j < 48 then arg.getLsbD (j - 32)
      else if j < 56 then false
      else op.getLsbD (j - 56) := by
  show (op ++ (0 : BitVec 8) ++ arg ++ data : BitVec (8 + 8 + 16 + 32)).getLsbD j = _
  simp only [BitVec.getLsbD_append]
  by_cases h0 : j < 32
  · simp [h0]
  · by_cases h1 : j < 48
    · simp [h0, h1, show j - 32 < 16 by omega]
    · by_cases h2 : j < 56
      · simp [h0, h1, h2, show ¬ (j - 32 < 16) by omega, show j - 32 - 16 < 8 by omega]
      · simp [h0, h1, h2, show ¬ (j - 32 < 16) by omega, show ¬ (j - 32 - 16 < 8) by omega,
          show j - 32 - 16 - 8 = j - 56 by omega]

@[simp] theorem cmdOp_cmdWord (op : BitVec 8) (arg : Arg) (data : Word) : cmdOp (cmdWord op arg data) = op := by
  apply BitVec.eq_of_getLsbD_eq
  intro i hi
  rw [cmdOp, BitVec.getLsbD_extractLsb', getLsbD_cmdWord]
  simp [hi, show ¬ (56 + i < 32) by omega, show ¬ (56 + i < 48) by omega, show ¬ (56 + i < 56) by omega]

@[simp] theorem cmdRsv_cmdWord (op : BitVec 8) (arg : Arg) (data : Word) : cmdRsv (cmdWord op arg data) = 0 := by
  apply BitVec.eq_of_getLsbD_eq
  intro i hi
  rw [cmdRsv, BitVec.getLsbD_extractLsb', getLsbD_cmdWord]
  simp [hi, show ¬ (48 + i < 32) by omega, show ¬ (48 + i < 48) by omega, show 48 + i < 56 by omega]

@[simp] theorem cmdArg_cmdWord (op : BitVec 8) (arg : Arg) (data : Word) : cmdArg (cmdWord op arg data) = arg := by
  apply BitVec.eq_of_getLsbD_eq
  intro i hi
  rw [cmdArg, BitVec.getLsbD_extractLsb', getLsbD_cmdWord]
  simp [hi, show ¬ (32 + i < 32) by omega, show 32 + i < 48 by omega]

@[simp] theorem cmdData_cmdWord (op : BitVec 8) (arg : Arg) (data : Word) : cmdData (cmdWord op arg data) = data := by
  apply BitVec.eq_of_getLsbD_eq
  intro i hi
  rw [cmdData, BitVec.getLsbD_extractLsb', getLsbD_cmdWord]
  simp [hi]

/-- A word whose reserved field is zero is the word of its fields. -/
theorem cmdWord_fields (w : CmdWord) (h : cmdRsv w = 0) : cmdWord (cmdOp w) (cmdArg w) (cmdData w) = w := by
  apply BitVec.eq_of_getLsbD_eq
  intro i hi
  have hr : ∀ j, j < 8 → w.getLsbD (48 + j) = false := by
    intro j hj
    have := congrArg (fun v => v.getLsbD j) h
    simpa [cmdRsv, BitVec.getLsbD_extractLsb', hj] using this
  rw [getLsbD_cmdWord]
  simp only [cmdOp, cmdArg, cmdData, BitVec.getLsbD_extractLsb']
  by_cases h0 : i < 32
  · simp [h0]
  · by_cases h1 : i < 48
    · simp [h0, h1, show i - 32 < 16 by omega, show 32 + (i - 32) = i by omega]
    · by_cases h2 : i < 56
      · have := hr (i - 48) (by omega)
        rw [show 48 + (i - 48) = i by omega] at this
        simp [h0, h1, h2, this]
      · simp [h0, h1, h2, show i - 56 < 8 by omega, show 56 + (i - 56) = i by omega]

/-- A word made from its fields, as a number. -/
theorem cmdWord_toNat (op : BitVec 8) (arg : Arg) (data : Word) :
    (cmdWord op arg data).toNat = op.toNat * 2 ^ 56 + arg.toNat * 2 ^ 32 + data.toNat := by
  show (op ++ (0 : BitVec 8) ++ arg ++ data : BitVec (8 + 8 + 16 + 32)).toNat = _
  simp only [BitVec.toNat_append]
  rw [← Nat.shiftLeft_add_eq_or_of_lt data.isLt, ← Nat.shiftLeft_add_eq_or_of_lt arg.isLt,
    ← Nat.shiftLeft_add_eq_or_of_lt (BitVec.isLt _)]
  simp [Nat.shiftLeft_eq]
  omega

theorem cmdOp_toNat (w : CmdWord) : (cmdOp w).toNat = w.toNat / 2 ^ 56 := by
  have := w.isLt
  simp [cmdOp, BitVec.extractLsb'_toNat, Nat.shiftRight_eq_div_pow]
  omega

theorem cmdRsv_toNat (w : CmdWord) : (cmdRsv w).toNat = w.toNat / 2 ^ 48 % 256 := by
  simp [cmdRsv, BitVec.extractLsb'_toNat, Nat.shiftRight_eq_div_pow]

theorem cmdArg_toNat (w : CmdWord) : (cmdArg w).toNat = w.toNat / 2 ^ 32 % 65536 := by
  simp [cmdArg, BitVec.extractLsb'_toNat, Nat.shiftRight_eq_div_pow]

end Sys2Proof
end

