-- ==== Sys2Proof/Laws/Memory.lean ====
section
/-! SUPPORT. The laws of memory: read after write, the canonical form kept, slots as bytes. -/

namespace Sys2Proof.Machine

/-! ### Bytes -/

@[simp] theorem readByte_nil (x : Nat) : Memory.readByte [] x = Memory.blank := rfl

theorem readByte_cons (a : Nat) (b : Byte) (m : Memory) (x : Nat) :
    Memory.readByte ((a, b) :: m) x = if x = a then b else Memory.readByte m x := rfl

/-- A byte below every listed address is not listed. -/
theorem readByte_of_lt (m : Memory) (x : Nat) (h : ∀ p ∈ m, x < p.1) : m.readByte x = Memory.blank := by
  induction m with
  | nil => rfl
  | cons p m ih =>
    have hp := h p List.mem_cons_self
    rw [readByte_cons, if_neg (by omega)]
    exact ih fun q hq => h q (List.mem_cons_of_mem _ hq)

theorem readByte_consByte (x : Nat) (v : Byte) (m : Memory) (y : Nat) (h : m.readByte x = Memory.blank) :
    (Memory.consByte x v m).readByte y = if y = x then v else m.readByte y := by
  unfold Memory.consByte
  by_cases hv : v = Memory.blank
  · rw [if_pos hv]
    by_cases hy : y = x
    · rw [if_pos hy, hy, h, hv]
    · rw [if_neg hy]
  · rw [if_neg hv, readByte_cons]

/-- The tail of a canonical memory is canonical and lies above its head. -/
theorem wf_cons (a : Nat) (b : Byte) (m : Memory) (h : Memory.wf ((a, b) :: m)) :
    m.wf ∧ (∀ p ∈ m, a < p.1) ∧ b ≠ Memory.blank ∧ a < Config.nBytes := by
  obtain ⟨hs, hb⟩ := h
  rw [List.pairwise_cons] at hs
  exact ⟨⟨hs.2, fun p hp => hb p (List.mem_cons_of_mem _ hp)⟩, hs.1, hb _ List.mem_cons_self⟩

/-- Read after write of one byte: the byte written, and every other as before. -/
theorem readByte_writeByte (m : Memory) (x : Nat) (v : Byte) (y : Nat) (h : m.wf) :
    (m.writeByte x v).readByte y = if y = x then v else m.readByte y := by
  induction m with
  | nil => exact readByte_consByte x v [] y rfl
  | cons p m ih =>
    obtain ⟨a, b⟩ := p
    obtain ⟨hm, hlt, -, -⟩ := wf_cons a b m h
    unfold Memory.writeByte
    split
    · next hxa =>
      refine readByte_consByte x v _ y (readByte_of_lt _ x fun q hq => ?_)
      rcases List.mem_cons.1 hq with rfl | hq
      · exact hxa
      · exact Nat.lt_trans hxa (hlt q hq)
    · split
      · next hxa =>
        subst hxa
        rw [readByte_consByte x v m y (readByte_of_lt m x hlt), readByte_cons]
        split <;> rfl
      · next hne =>
        rw [readByte_cons, ih hm, readByte_cons]
        by_cases hya : y = a
        · rw [if_pos hya, if_pos hya, if_neg (by omega)]
        · rw [if_neg hya, if_neg hya]

theorem mem_consByte (x : Nat) (v : Byte) (m : Memory) (p : Host.Cell) (h : p ∈ Memory.consByte x v m) :
    (p = (x, v) ∧ v ≠ Memory.blank) ∨ p ∈ m := by
  unfold Memory.consByte at h
  split at h
  · exact .inr h
  · next hv => exact (List.mem_cons.1 h).imp (fun hp => ⟨hp, hv⟩) id

theorem mem_writeByte (m : Memory) (x : Nat) (v : Byte) (p : Host.Cell) (h : p ∈ m.writeByte x v) :
    (p = (x, v) ∧ v ≠ Memory.blank) ∨ p ∈ m := by
  induction m with
  | nil => exact mem_consByte x v [] p h
  | cons q m ih =>
    obtain ⟨a, b⟩ := q
    unfold Memory.writeByte at h
    split at h
    · exact mem_consByte x v _ p h
    · split at h
      · exact (mem_consByte x v m p h).imp id (List.mem_cons_of_mem _)
      · rcases List.mem_cons.1 h with rfl | h
        · exact .inr List.mem_cons_self
        · exact (ih h).imp id (List.mem_cons_of_mem _)

theorem sorted_consByte (x : Nat) (v : Byte) (m : Memory) (h : m.Pairwise (fun p q => p.1 < q.1))
    (hx : ∀ p ∈ m, x < p.1) : (Memory.consByte x v m).Pairwise (fun p q => p.1 < q.1) := by
  unfold Memory.consByte
  split
  · exact h
  · exact List.pairwise_cons.2 ⟨hx, h⟩

/-- Storing a byte of the track keeps the canonical form. -/
theorem wf_writeByte (m : Memory) (x : Nat) (v : Byte) (h : m.wf) (hx : x < Config.nBytes) :
    (m.writeByte x v).wf := by
  refine ⟨?_, fun p hp => ?_⟩
  · induction m with
    | nil => exact sorted_consByte x v [] h.1 (by simp)
    | cons q m ih =>
      obtain ⟨a, b⟩ := q
      obtain ⟨hm, hlt, -, -⟩ := wf_cons a b m h
      unfold Memory.writeByte
      split
      · next hxa =>
        refine sorted_consByte x v _ h.1 fun p hp => ?_
        rcases List.mem_cons.1 hp with rfl | hp
        · exact hxa
        · exact Nat.lt_trans hxa (hlt p hp)
      · split
        · next hxa => exact sorted_consByte x v m hm.1 (hxa ▸ hlt)
        · refine List.pairwise_cons.2 ⟨fun p hp => ?_, ih hm⟩
          rcases mem_writeByte m x v p hp with ⟨rfl, -⟩ | hp
          · show a < x
            omega
          · exact hlt p hp
  · rcases mem_writeByte m x v p hp with ⟨rfl, hv⟩ | hp
    · exact ⟨hv, hx⟩
    · exact h.2 p hp

/-! ### Slots -/

/-- The bytes of slot `s`. -/
theorem slotAddr_lt (s : Sector) : slotAddr s + 3 < Config.nBytes := by
  have := s.isLt
  unfold slotAddr Config.nBytes
  omega

/-- Different slots have different bytes. -/
theorem slotAddr_ne (s t : Sector) (h : s ≠ t) : slotAddr s + 4 ≤ slotAddr t ∨ slotAddr t + 4 ≤ slotAddr s := by
  have : s.toNat ≠ t.toNat := fun hn => h (BitVec.eq_of_toNat_eq hn)
  unfold slotAddr
  omega

/-- Storing a slot keeps the canonical form. -/
theorem wf_memWrite (m : Memory) (s : Sector) (v : Word) (h : m.wf) : (memWrite m s v).wf := by
  have hs := slotAddr_lt s
  exact wf_writeByte _ _ _ (wf_writeByte _ _ _ (wf_writeByte _ _ _ (wf_writeByte _ _ _ h (by omega)) (by omega))
    (by omega)) hs

/-- Every byte after a slot is stored: the slot's four bytes hold the normalised value, every other is as before. -/
theorem readByte_memWrite (m : Memory) (s : Sector) (v : Word) (y : Nat) (h : m.wf) :
    (memWrite m s v).readByte y =
      if y = slotAddr s + 3 then (normWord v).extractLsb' 24 8
      else if y = slotAddr s + 2 then (normWord v).extractLsb' 16 8
      else if y = slotAddr s + 1 then (normWord v).extractLsb' 8 8
      else if y = slotAddr s then (normWord v).extractLsb' 0 8
      else m.readByte y := by
  have hs := slotAddr_lt s
  have h0 := wf_writeByte m (slotAddr s) ((normWord v).extractLsb' 0 8) h (by omega)
  have h1 := wf_writeByte _ (slotAddr s + 1) ((normWord v).extractLsb' 8 8) h0 (by omega)
  have h2 := wf_writeByte _ (slotAddr s + 2) ((normWord v).extractLsb' 16 8) h1 (by omega)
  unfold memWrite
  rw [readByte_writeByte _ _ _ _ h2, readByte_writeByte _ _ _ _ h1, readByte_writeByte _ _ _ _ h0,
    readByte_writeByte _ _ _ _ h]

/-- A byte outside the slot stored is as before. -/
theorem readByte_memWrite_other (m : Memory) (s : Sector) (v : Word) (y : Nat) (h : m.wf)
    (hy : y < slotAddr s ∨ slotAddr s + 4 ≤ y) : (memWrite m s v).readByte y = m.readByte y := by
  rw [readByte_memWrite m s v y h, if_neg (by omega), if_neg (by omega), if_neg (by omega), if_neg (by omega)]

/-- A word is its four bytes. -/
theorem word_of_bytes (v : Word) :
    v.extractLsb' 24 8 ++ v.extractLsb' 16 8 ++ v.extractLsb' 8 8 ++ v.extractLsb' 0 8 = v := by
  apply BitVec.eq_of_getLsbD_eq
  intro i hi
  simp only [BitVec.getLsbD_append, BitVec.getLsbD_extractLsb']
  by_cases h0 : i < 8
  · simp [h0]
  · by_cases h1 : i - 8 < 8
    · simp [h0, h1]; congr 1; omega
    · by_cases h2 : i - 8 - 8 < 8
      · simp [h0, h1, h2]; congr 1; omega
      · have h3 : i - 8 - 8 - 8 < 8 := by omega
        simp [h0, h1, h2, h3]; congr 1; omega

/-- Clearing the spacer bit twice is clearing it once. -/
@[simp] theorem normWord_normWord (v : Word) : normWord (normWord v) = normWord v := by
  unfold normWord
  rw [BitVec.and_assoc, BitVec.and_self]

/-- Bit 31 of a normalised value is 0. -/
@[simp] theorem normWord_spacer (v : Word) : (normWord v).getLsbD 31 = false := by
  unfold normWord
  rw [BitVec.getLsbD_and]
  have : Config.wordMask.getLsbD 31 = false := by decide
  rw [this, Bool.and_false]

@[simp] theorem normWord_getElem_spacer (v : Word) : (normWord v)[31] = false := normWord_spacer v

/-- Read after write of a slot: the value normalised (R89). -/
theorem memRead_memWrite_same (m : Memory) (s : Sector) (v : Word) (h : m.wf) :
    memRead (memWrite m s v) s = normWord v := by
  unfold memRead
  simp only [readByte_memWrite m s v _ h]
  have e' : ∀ j k, slotAddr s + k = slotAddr s + j ↔ k = j := by omega
  have e'' : ∀ k, slotAddr s = slotAddr s + k ↔ k = 0 := by omega
  simp only [e', e'']
  norm_num
  rw [word_of_bytes, normWord_normWord]

/-- Read after write of another slot: as before. -/
theorem memRead_memWrite_other (m : Memory) (s t : Sector) (v : Word) (h : m.wf) (hne : t ≠ s) :
    memRead (memWrite m s v) t = memRead m t := by
  have := slotAddr_ne s t (Ne.symm hne)
  unfold memRead
  rw [readByte_memWrite_other, readByte_memWrite_other, readByte_memWrite_other, readByte_memWrite_other] <;>
    first | exact h | omega

/-- A cleared memory reads zero in every slot (R93). -/
@[simp] theorem memRead_clear (t : Sector) : memRead memClear t = 0 := by
  unfold memRead memClear
  simp only [readByte_nil, Memory.blank]
  decide

theorem wf_clear : memClear.wf := ⟨List.Pairwise.nil, by simp [memClear]⟩

end Sys2Proof.Machine
end

