-- ==== Sys2Proof/Laws/State.lean ====
section
/-! SUPPORT. What each update of the state leaves in each field, true by unfolding once. -/

namespace Sys2Proof.Machine

/-! ### emitEvent: an event appended to the trace -/

@[simp] theorem emitEvent_mem (e : Event) (s : State) : (emitEvent e s).mem = s.mem := rfl
@[simp] theorem emitEvent_pc (e : Event) (s : State) : (emitEvent e s).pc = s.pc := rfl
@[simp] theorem emitEvent_cs (e : Event) (s : State) : (emitEvent e s).cs = s.cs := rfl
@[simp] theorem emitEvent_spinning (e : Event) (s : State) : (emitEvent e s).spinning = s.spinning := rfl
@[simp] theorem emitEvent_fault (e : Event) (s : State) : (emitEvent e s).fault = s.fault := rfl
@[simp] theorem emitEvent_phase (e : Event) (s : State) : (emitEvent e s).phase = s.phase := rfl
@[simp] theorem emitEvent_trace (e : Event) (s : State) : (emitEvent e s).trace = s.trace ++ [e] := rfl
@[simp] theorem emitEvent_cmd (e : Event) (s : State) : (emitEvent e s).cmd = s.cmd := rfl
@[simp] theorem emitEvent_cmdValid (e : Event) (s : State) : (emitEvent e s).cmdValid = s.cmdValid := rfl
@[simp] theorem emitEvent_script (e : Event) (s : State) : (emitEvent e s).script = s.script := rfl
@[simp] theorem emitEvent_rsp (e : Event) (s : State) : (emitEvent e s).rsp = s.rsp := rfl
@[simp] theorem emitEvent_rspValid (e : Event) (s : State) : (emitEvent e s).rspValid = s.rspValid := rfl
@[simp] theorem emitEvent_rngAnswers (e : Event) (s : State) : (emitEvent e s).rngAnswers = s.rngAnswers := rfl
@[simp] theorem emitEvent_drawCount (e : Event) (s : State) : (emitEvent e s).drawCount = s.drawCount := rfl
@[simp] theorem emitEvent_params (e : Event) (s : State) : (emitEvent e s).params = s.params := rfl

/-! ### respond: a response given -/

@[simp] theorem respond_mem (status : FaultCode) (data : Word) (s : State) : (respond status data s).mem = s.mem := rfl
@[simp] theorem respond_pc (status : FaultCode) (data : Word) (s : State) : (respond status data s).pc = s.pc := rfl
@[simp] theorem respond_cs (status : FaultCode) (data : Word) (s : State) : (respond status data s).cs = s.cs := rfl
@[simp] theorem respond_spinning (status : FaultCode) (data : Word) (s : State) : (respond status data s).spinning = s.spinning := rfl
@[simp] theorem respond_fault (status : FaultCode) (data : Word) (s : State) : (respond status data s).fault = s.fault := rfl
@[simp] theorem respond_phase (status : FaultCode) (data : Word) (s : State) : (respond status data s).phase = s.phase := rfl
@[simp] theorem respond_trace (status : FaultCode) (data : Word) (s : State) : (respond status data s).trace = s.trace := rfl
@[simp] theorem respond_cmd (status : FaultCode) (data : Word) (s : State) : (respond status data s).cmd = s.cmd := rfl
@[simp] theorem respond_cmdValid (status : FaultCode) (data : Word) (s : State) : (respond status data s).cmdValid = s.cmdValid := rfl
@[simp] theorem respond_script (status : FaultCode) (data : Word) (s : State) : (respond status data s).script = s.script := rfl
@[simp] theorem respond_rsp (status : FaultCode) (data : Word) (s : State) : (respond status data s).rsp = rspWord status data := rfl
@[simp] theorem respond_rspValid (status : FaultCode) (data : Word) (s : State) : (respond status data s).rspValid = true := rfl
@[simp] theorem respond_rngAnswers (status : FaultCode) (data : Word) (s : State) : (respond status data s).rngAnswers = s.rngAnswers := rfl
@[simp] theorem respond_drawCount (status : FaultCode) (data : Word) (s : State) : (respond status data s).drawCount = s.drawCount := rfl
@[simp] theorem respond_params (status : FaultCode) (data : Word) (s : State) : (respond status data s).params = s.params := rfl

/-! ### rotationStep: a rotation step -/

@[simp] theorem rotationStep_mem (s : State) : (rotationStep s).mem = s.mem := rfl
@[simp] theorem rotationStep_pc (s : State) : (rotationStep s).pc = s.pc := rfl
@[simp] theorem rotationStep_cs (s : State) : (rotationStep s).cs = nextSector s.cs := rfl
@[simp] theorem rotationStep_spinning (s : State) : (rotationStep s).spinning = s.spinning := rfl
@[simp] theorem rotationStep_fault (s : State) : (rotationStep s).fault = s.fault := rfl
@[simp] theorem rotationStep_phase (s : State) : (rotationStep s).phase = s.phase := rfl
@[simp] theorem rotationStep_trace (s : State) : (rotationStep s).trace = s.trace ++ [.rotate (nextSector s.cs)] ++ [.delay s.params.tSectorUs] := rfl
@[simp] theorem rotationStep_cmd (s : State) : (rotationStep s).cmd = s.cmd := rfl
@[simp] theorem rotationStep_cmdValid (s : State) : (rotationStep s).cmdValid = s.cmdValid := rfl
@[simp] theorem rotationStep_script (s : State) : (rotationStep s).script = s.script := rfl
@[simp] theorem rotationStep_rsp (s : State) : (rotationStep s).rsp = s.rsp := rfl
@[simp] theorem rotationStep_rspValid (s : State) : (rotationStep s).rspValid = s.rspValid := rfl
@[simp] theorem rotationStep_rngAnswers (s : State) : (rotationStep s).rngAnswers = s.rngAnswers := rfl
@[simp] theorem rotationStep_drawCount (s : State) : (rotationStep s).drawCount = s.drawCount := rfl
@[simp] theorem rotationStep_params (s : State) : (rotationStep s).params = s.params := rfl

/-! ### drawDone: a draw made -/

@[simp] theorem drawDone_mem (s : State) : (drawDone s).mem = s.mem := rfl
@[simp] theorem drawDone_pc (s : State) : (drawDone s).pc = s.pc := rfl
@[simp] theorem drawDone_cs (s : State) : (drawDone s).cs = s.cs := rfl
@[simp] theorem drawDone_spinning (s : State) : (drawDone s).spinning = s.spinning := rfl
@[simp] theorem drawDone_fault (s : State) : (drawDone s).fault = s.fault := rfl
@[simp] theorem drawDone_phase (s : State) : (drawDone s).phase = s.phase := rfl
@[simp] theorem drawDone_trace (s : State) : (drawDone s).trace = s.trace := rfl
@[simp] theorem drawDone_cmd (s : State) : (drawDone s).cmd = s.cmd := rfl
@[simp] theorem drawDone_cmdValid (s : State) : (drawDone s).cmdValid = s.cmdValid := rfl
@[simp] theorem drawDone_script (s : State) : (drawDone s).script = s.script := rfl
@[simp] theorem drawDone_rsp (s : State) : (drawDone s).rsp = s.rsp := rfl
@[simp] theorem drawDone_rspValid (s : State) : (drawDone s).rspValid = s.rspValid := rfl
@[simp] theorem drawDone_rngAnswers (s : State) : (drawDone s).rngAnswers = s.rngAnswers.tail := rfl
@[simp] theorem drawDone_drawCount (s : State) : (drawDone s).drawCount = s.drawCount + 1 := rfl
@[simp] theorem drawDone_params (s : State) : (drawDone s).params = s.params := rfl

/-! ### takeCommand: a word taken from the port -/

@[simp] theorem takeCommand_mem (s : State) : (takeCommand s).mem = s.mem := rfl
@[simp] theorem takeCommand_pc (s : State) : (takeCommand s).pc = s.pc := rfl
@[simp] theorem takeCommand_cs (s : State) : (takeCommand s).cs = s.cs := rfl
@[simp] theorem takeCommand_spinning (s : State) : (takeCommand s).spinning = s.spinning := rfl
@[simp] theorem takeCommand_fault (s : State) : (takeCommand s).fault = s.fault := rfl
@[simp] theorem takeCommand_phase (s : State) : (takeCommand s).phase = s.phase := rfl
@[simp] theorem takeCommand_trace (s : State) : (takeCommand s).trace = s.trace := rfl
@[simp] theorem takeCommand_cmd (s : State) : (takeCommand s).cmd = s.cmd := rfl
@[simp] theorem takeCommand_cmdValid (s : State) : (takeCommand s).cmdValid = false := rfl
@[simp] theorem takeCommand_script (s : State) : (takeCommand s).script = s.script := rfl
@[simp] theorem takeCommand_rsp (s : State) : (takeCommand s).rsp = s.rsp := rfl
@[simp] theorem takeCommand_rspValid (s : State) : (takeCommand s).rspValid = false := rfl
@[simp] theorem takeCommand_rngAnswers (s : State) : (takeCommand s).rngAnswers = s.rngAnswers := rfl
@[simp] theorem takeCommand_drawCount (s : State) : (takeCommand s).drawCount = s.drawCount := rfl
@[simp] theorem takeCommand_params (s : State) : (takeCommand s).params = s.params := rfl

/-! ### raiseUsageFault: a usage fault raised (R109) -/

@[simp] theorem raiseUsageFault_mem (f : UsageFault) (s : State) : (raiseUsageFault f s).mem = s.mem := rfl
@[simp] theorem raiseUsageFault_pc (f : UsageFault) (s : State) : (raiseUsageFault f s).pc = s.pc := rfl
@[simp] theorem raiseUsageFault_cs (f : UsageFault) (s : State) : (raiseUsageFault f s).cs = s.cs := rfl
@[simp] theorem raiseUsageFault_spinning (f : UsageFault) (s : State) : (raiseUsageFault f s).spinning = s.spinning := rfl
@[simp] theorem raiseUsageFault_fault (f : UsageFault) (s : State) : (raiseUsageFault f s).fault = faultCode f := rfl
@[simp] theorem raiseUsageFault_phase (f : UsageFault) (s : State) : (raiseUsageFault f s).phase = s.phase := rfl
@[simp] theorem raiseUsageFault_trace (f : UsageFault) (s : State) : (raiseUsageFault f s).trace = s.trace := rfl
@[simp] theorem raiseUsageFault_cmd (f : UsageFault) (s : State) : (raiseUsageFault f s).cmd = s.cmd := rfl
@[simp] theorem raiseUsageFault_cmdValid (f : UsageFault) (s : State) : (raiseUsageFault f s).cmdValid = s.cmdValid := rfl
@[simp] theorem raiseUsageFault_script (f : UsageFault) (s : State) : (raiseUsageFault f s).script = s.script := rfl
@[simp] theorem raiseUsageFault_rsp (f : UsageFault) (s : State) : (raiseUsageFault f s).rsp = rspWord (faultCode f) 0 := rfl
@[simp] theorem raiseUsageFault_rspValid (f : UsageFault) (s : State) : (raiseUsageFault f s).rspValid = true := rfl
@[simp] theorem raiseUsageFault_rngAnswers (f : UsageFault) (s : State) : (raiseUsageFault f s).rngAnswers = s.rngAnswers := rfl
@[simp] theorem raiseUsageFault_drawCount (f : UsageFault) (s : State) : (raiseUsageFault f s).drawCount = s.drawCount := rfl
@[simp] theorem raiseUsageFault_params (f : UsageFault) (s : State) : (raiseUsageFault f s).params = s.params := rfl

/-! ### finishSpinUp: the last step of `SPIN_UP` (R71) -/

@[simp] theorem finishSpinUp_mem (s : State) : (finishSpinUp s).mem = s.mem := rfl
@[simp] theorem finishSpinUp_pc (s : State) : (finishSpinUp s).pc = 0 := rfl
@[simp] theorem finishSpinUp_cs (s : State) : (finishSpinUp s).cs = drawValue s := rfl
@[simp] theorem finishSpinUp_spinning (s : State) : (finishSpinUp s).spinning = true := rfl
@[simp] theorem finishSpinUp_fault (s : State) : (finishSpinUp s).fault = s.fault := rfl
@[simp] theorem finishSpinUp_phase (s : State) : (finishSpinUp s).phase = .idle := rfl
@[simp] theorem finishSpinUp_trace (s : State) : (finishSpinUp s).trace = s.trace := rfl
@[simp] theorem finishSpinUp_cmd (s : State) : (finishSpinUp s).cmd = s.cmd := rfl
@[simp] theorem finishSpinUp_cmdValid (s : State) : (finishSpinUp s).cmdValid = s.cmdValid := rfl
@[simp] theorem finishSpinUp_script (s : State) : (finishSpinUp s).script = s.script := rfl
@[simp] theorem finishSpinUp_rsp (s : State) : (finishSpinUp s).rsp = rspWord 0 0 := rfl
@[simp] theorem finishSpinUp_rspValid (s : State) : (finishSpinUp s).rspValid = true := rfl
@[simp] theorem finishSpinUp_rngAnswers (s : State) : (finishSpinUp s).rngAnswers = s.rngAnswers.tail := rfl
@[simp] theorem finishSpinUp_drawCount (s : State) : (finishSpinUp s).drawCount = s.drawCount + 1 := rfl
@[simp] theorem finishSpinUp_params (s : State) : (finishSpinUp s).params = s.params := rfl

/-! ### The state after RESET (R131) -/

@[simp] theorem resetWith_mem (p : Config.Params) : (State.resetWith p).mem = [] := rfl
@[simp] theorem resetWith_pc (p : Config.Params) : (State.resetWith p).pc = 0 := rfl
@[simp] theorem resetWith_cs (p : Config.Params) : (State.resetWith p).cs = 0 := rfl
@[simp] theorem resetWith_spinning (p : Config.Params) : (State.resetWith p).spinning = false := rfl
@[simp] theorem resetWith_fault (p : Config.Params) : (State.resetWith p).fault = 0 := rfl
@[simp] theorem resetWith_phase (p : Config.Params) : (State.resetWith p).phase = .idle := rfl
@[simp] theorem resetWith_trace (p : Config.Params) : (State.resetWith p).trace = [] := rfl
@[simp] theorem resetWith_cmd (p : Config.Params) : (State.resetWith p).cmd = 0 := rfl
@[simp] theorem resetWith_cmdValid (p : Config.Params) : (State.resetWith p).cmdValid = false := rfl
@[simp] theorem resetWith_script (p : Config.Params) : (State.resetWith p).script = [] := rfl
@[simp] theorem resetWith_rsp (p : Config.Params) : (State.resetWith p).rsp = 0 := rfl
@[simp] theorem resetWith_rspValid (p : Config.Params) : (State.resetWith p).rspValid = false := rfl
@[simp] theorem resetWith_rngAnswers (p : Config.Params) : (State.resetWith p).rngAnswers = [] := rfl
@[simp] theorem resetWith_drawCount (p : Config.Params) : (State.resetWith p).drawCount = 0 := rfl
@[simp] theorem resetWith_params (p : Config.Params) : (State.resetWith p).params = p := rfl

end Sys2Proof.Machine
end

