-- ==== Sys2Proof/Laws/Ops.lean ====
section
/-! SUPPORT. What each shared operation does, said once. -/

namespace Sys2Proof.Machine

/-! ### Operands and positions -/

theorem inRange_iff (a : Arg) : inRange a = true ↔ a.toNat ≤ 4095 := by
  simp [inRange, BitVec.le_def]

theorem sectorOf_toNat (a : Arg) : (sectorOf a).toNat = a.toNat % 4096 := by
  simp [sectorOf, BitVec.extractLsb'_toNat]

theorem sectorOf_toNat_of_inRange (a : Arg) (h : inRange a = true) : (sectorOf a).toNat = a.toNat := by
  rw [sectorOf_toNat]
  have := (inRange_iff a).1 h
  omega

theorem nextSector_toNat (c : Sector) : (nextSector c).toNat = (c.toNat + 1) % 4096 := by
  simp [nextSector, BitVec.toNat_add]

/-- The distance is below one revolution. -/
theorem sectorDist_lt (c t : Sector) : sectorDist c t < 4096 := Nat.mod_lt _ (by decide)

@[simp] theorem sectorDist_self (c : Sector) : sectorDist c c = 0 := by
  unfold sectorDist Config.nSectors
  omega

/-- Away from the target, a rotation step brings it one sector nearer. -/
theorem sectorDist_nextSector (c t : Sector) (h : c ≠ t) : sectorDist c t = sectorDist (nextSector c) t + 1 := by
  have hn : c.toNat ≠ t.toNat := fun e => h (BitVec.eq_of_toNat_eq e)
  have := c.isLt
  have := t.isLt
  simp only [sectorDist, nextSector_toNat, Config.nSectors]
  omega

/-! ### Responses -/

/-- The bits of a response word. -/
theorem getLsbD_rspWord (st : FaultCode) (d : Word) (j : Nat) :
    (rspWord st d).getLsbD j = if j < 32 then d.getLsbD j else st.getLsbD (j - 32) := by
  show (st ++ d : BitVec (4 + 32)).getLsbD j = _
  rw [BitVec.getLsbD_append]

@[simp] theorem rspStatus_rspWord (st : FaultCode) (d : Word) : rspStatus (rspWord st d) = st := by
  apply BitVec.eq_of_getLsbD_eq
  intro i hi
  rw [rspStatus, BitVec.getLsbD_extractLsb', getLsbD_rspWord]
  simp [hi]

@[simp] theorem rspData_rspWord (st : FaultCode) (d : Word) : rspData (rspWord st d) = d := by
  apply BitVec.eq_of_getLsbD_eq
  intro i hi
  rw [rspData, BitVec.getLsbD_extractLsb', getLsbD_rspWord]
  simp [hi]

/-! ### Readiness -/

theorem ready_iff (s : State) : s.ready = true ↔ s.fault = 0 ∧ s.phase = .idle := by
  simp [State.ready]

/-! ### Draws (R119) -/

theorem drawValue_cons (s : State) (r : Sector) (rs : List Sector) (h : s.rngAnswers = r :: rs) : drawValue s = r := by
  simp [drawValue, h]

/-! ### Checks (R107) -/

/-- A range fault is one of the two range codes. -/
theorem rangeFault_cases (i : Instr) (f : UsageFault) (h : rangeFault i = some f) : f = .sectorRange ∨ f = .pcRange := by
  cases i <;> simp [rangeFault] at h <;> simp [h.2.symm]

/-- The faults a check can answer: every code of R101 but the reserved one. -/
theorem check_cases (s : State) (c : Decoded) (f : UsageFault) (h : check s c = some f) :
    f = .notSpinning ∨ f = .sectorRange ∨ f = .pcRange ∨ f = .illegalCommand := by
  cases c with
  | illegal why => simp [check] at h; simp [h.symm]
  | command i =>
    simp only [check] at h
    split at h
    · simp at h; simp [h.symm]
    · rcases rangeFault_cases i f h with rfl | rfl <;> simp

/-- A command that needs the Spinning state and passes its checks finds it. -/
theorem spinning_of_check (s : State) (i : Instr) (hn : needsSpinning i = true) (h : check s (.command i) = none) :
    s.spinning = true := by
  simp only [check, hn] at h
  split at h
  · cases h
  · next hs => simpa using hs

/-! ### Acceptance (R65) -/

/-- All that accepting a command can do: raise the first failing check's fault, or have the effect. -/
theorem acceptCommand_cases (s : State) (i : Instr) (effect : State → State) (t : State)
    (h : acceptCommand s i effect = .next t) :
    (∃ f, check s (.command i) = some f ∧ t = raiseUsageFault f (takeCommand s)) ∨
      (check s (.command i) = none ∧ t = effect (takeCommand s)) := by
  unfold acceptCommand at h
  split at h
  · next f hf => exact .inl ⟨f, hf, by simpa using h.symm⟩
  · next hn => exact .inr ⟨hn, by simpa using h.symm⟩

theorem acceptCommand_ok (s : State) (i : Instr) (effect : State → State) (h : check s (.command i) = none) :
    acceptCommand s i effect = .next (effect (takeCommand s)) := by
  simp [acceptCommand, h]

theorem acceptCommand_fault (s : State) (i : Instr) (effect : State → State) (f : UsageFault)
    (h : check s (.command i) = some f) :
    acceptCommand s i effect = .next (raiseUsageFault f (takeCommand s)) := by
  simp [acceptCommand, h]

/-- All that presenting can do (R19a). -/
theorem presentNext_cases (s : State) :
    (s.script = [] ∧ presentNext s = s) ∨
      ∃ w ws, s.script = w :: ws ∧ presentNext s = { s with cmd := w, cmdValid := true, script := ws } := by
  unfold presentNext
  split
  · exact .inl ⟨‹_›, rfl⟩
  · next w ws h => exact .inr ⟨w, ws, h, rfl⟩

/-- All that a pause step can do (R71): one more pause requested, or the last step. -/
theorem spinUpStep_cases (i : Nat) (s : State) :
    (∃ d, s.params.spinupPausesUs[i]? = some d ∧
        spinUpStep i s = emitEvent (.delay d) { s with phase := .spinPause (i + 1) }) ∨
      (s.params.spinupPausesUs.length ≤ i ∧ spinUpStep i s = finishSpinUp s) := by
  unfold spinUpStep
  split
  · next d h => exact .inl ⟨d, h, rfl⟩
  · next h => exact .inr ⟨by simpa using h, rfl⟩

/-- All that a search step can do (R80). -/
theorem locateStep_cases (t : Sector) (s : State) :
    (s.cs = t ∧ locateStep t s = respond 0 0 { s with phase := .idle }) ∨
      (s.cs ≠ t ∧ locateStep t s = rotationStep s) := by
  unfold locateStep
  split
  · exact .inl ⟨‹_›, rfl⟩
  · exact .inr ⟨‹_›, rfl⟩

/-! ### Events (R78, R145) -/

@[simp] theorem requested_append (a b : List Event) : requested (a ++ b) = requested a + requested b := by
  simp [requested]

@[simp] theorem rotations_append (a b : List Event) : rotations (a ++ b) = rotations a + rotations b := by
  simp [rotations]

@[simp] theorem delays_append (a b : List Event) : delays (a ++ b) = delays a + delays b := by
  simp [delays]

@[simp] theorem requested_rotationEvents (us k : Nat) (c : Sector) : requested (rotationEvents us k c) = k * us := by
  induction k generalizing c with
  | zero => simp [rotationEvents, requested]
  | succ k ih =>
    have := ih (nextSector c)
    simp only [requested] at this
    simp [rotationEvents, requested, eventDelay, this]
    ring

@[simp] theorem rotations_rotationEvents (us k : Nat) (c : Sector) : rotations (rotationEvents us k c) = k := by
  induction k generalizing c with
  | zero => rfl
  | succ k ih =>
    have := ih (nextSector c)
    simp only [rotations] at this
    simp [rotationEvents, rotations, eventIsRotate, List.countP_cons, this]

@[simp] theorem delays_rotationEvents (us k : Nat) (c : Sector) : delays (rotationEvents us k c) = k := by
  induction k generalizing c with
  | zero => rfl
  | succ k ih =>
    have := ih (nextSector c)
    simp only [delays] at this
    simp only [rotationEvents, delays, List.countP_cons]
    rw [this]
    simp [eventIsRotate]

end Sys2Proof.Machine
end

