-- ==== Sys2Proof/Laws/PerInstr.lean ====
section
/-! SUPPORT. Statements made for every constructor of `Instr`, one lemma each: its canonical word is its row of the opcode
table (match under mask), and it sets no bit the command does not use. -/

namespace Sys2Proof

/-- The `match` column of the opcode table. -/
def tableMatch : Instr → CmdWord
  | .spinUp => 0x0100000000000000
  | .rotate => 0x0200000000000000
  | .locate _ => 0x0300000000000000
  | .read _ => 0x0400000000000000
  | .write _ _ => 0x0500000000000000
  | .wipe => 0x0600000000000000
  | .pcLoad _ => 0x0700000000000000

/-- A word's header, under the mask of the opcode table. -/
theorem cmdWord_header (op : BitVec 8) (a : Arg) (d : Word) :
    cmdWord op a d &&& 0xFFFF000000000000 = cmdWord op 0 0 := by
  have hm : (0xFFFF000000000000 : CmdWord) = (0xFF : BitVec 8) ++ (0xFF : BitVec 8) ++ (0 : Arg) ++ (0 : Word) := by decide
  have h1 : op &&& 255#8 = op := BitVec.and_allOnes
  rw [hm]
  unfold cmdWord
  rw [BitVec.and_append, BitVec.and_append, BitVec.and_append]
  simp [h1]

/-- The canonical word matches the command's row of the opcode table. -/
def Laws.TableRow.Statement (i : Instr) : Prop := encode i &&& 0xFFFF000000000000 = tableMatch i

theorem Laws.TableRow.spinUp : Laws.TableRow.Statement .spinUp := by unfold Laws.TableRow.Statement; decide
theorem Laws.TableRow.rotate : Laws.TableRow.Statement .rotate := by unfold Laws.TableRow.Statement; decide
theorem Laws.TableRow.locate (target : Arg) : Laws.TableRow.Statement (.locate target) := cmdWord_header 3 target 0
theorem Laws.TableRow.read (sector : Arg) : Laws.TableRow.Statement (.read sector) := cmdWord_header 4 sector 0
theorem Laws.TableRow.write (sector : Arg) (value : Word) : Laws.TableRow.Statement (.write sector value) :=
  cmdWord_header 5 sector value
theorem Laws.TableRow.wipe : Laws.TableRow.Statement .wipe := by unfold Laws.TableRow.Statement; decide
theorem Laws.TableRow.pcLoad (p : Arg) : Laws.TableRow.Statement (.pcLoad p) := cmdWord_header 7 p 0

end Sys2Proof
end

