-- ==== Sys2Proof/Laws/Safety.lean ====
section
/-! SUPPORT. The spacer bit of stored slots, memory operation by memory operation (R24). -/

namespace Sys2Proof.Machine

theorem spacerClear_clear : SpacerClear memClear := by
  intro x
  simp [memClear, Memory.blank]

/-- Storing a slot, whatever the value, leaves every spacer bit clear (R15, D26). -/
theorem spacerClear_memWrite (m : Memory) (s : Sector) (v : Word) (hm : m.wf) (h : SpacerClear m) :
    SpacerClear (memWrite m s v) := by
  intro x
  by_cases hx : x = s
  · subst hx
    rw [readByte_memWrite m x v _ hm, if_pos rfl, BitVec.getLsbD_extractLsb']
    simp
  · have := slotAddr_ne s x (Ne.symm hx)
    rw [readByte_memWrite_other m s v _ hm (by omega)]
    exact h x

/-- Reading a slot never shows a spacer bit (R85). -/
@[simp] theorem memRead_spacer (m : Memory) (s : Sector) : (memRead m s).getLsbD 31 = false := normWord_spacer _

end Sys2Proof.Machine
end

