-- ==== Sys2Proof/Laws/Step.lean ====
section
/-! SUPPORT. What a step can do, said once, and runs cut into steps. -/

namespace Sys2Proof.Machine

/-- The effect of a command that passes its checks, as one table (R65). -/
def effectOf (i : Instr) (t : State) : State :=
  match i with
  | .spinUp => { t with phase := .spinPause 0 }
  | .rotate => respond 0 0 (rotationStep t)
  | .locate a => { t with phase := .locating (sectorOf a) }
  | .read a => respond 0 (normWord (memRead t.mem (sectorOf a))) t
  | .write a v => respond 0 0 { t with mem := memWrite t.mem (sectorOf a) (normWord v) }
  | .wipe => respond 0 0 { t with mem := memClear, pc := 0, cs := 0, spinning := false }
  | .pcLoad p => respond 0 0 { t with pc := sectorOf p }

/-- `exec` is the acceptance of the command with its effect. -/
theorem exec_eq (i : Instr) (s : State) : exec i s = acceptCommand s i (effectOf i) := by
  cases i <;> rfl

theorem exec_fault (i : Instr) (s : State) (f : UsageFault) (h : check s (.command i) = some f) :
    exec i s = .next (raiseUsageFault f (takeCommand s)) := by
  rw [exec_eq]
  exact acceptCommand_fault s i _ f h

theorem exec_ok (i : Instr) (s : State) (h : check s (.command i) = none) :
    exec i s = .next (effectOf i (takeCommand s)) := by
  rw [exec_eq]
  exact acceptCommand_ok s i _ h

/-- What `exec` can do: raise the first failing check's fault and nothing else, or, all checks passed, have the command's
effect. -/
theorem exec_cases (i : Instr) (s t : State) (h : exec i s = .next t) :
    (∃ f, check s (.command i) = some f ∧ t = raiseUsageFault f (takeCommand s)) ∨
      (check s (.command i) = none ∧ t = effectOf i (takeCommand s)) := by
  rw [exec_eq] at h
  exact acceptCommand_cases s i _ t h

/-- All that a step answering a next state can be (R19, R62, R65, R71, R80). -/
theorem step_cases (s t : State) (h : step s = .next t) :
    s.fault = 0 ∧
      ((∃ i, s.phase = .spinPause i ∧ t = spinUpStep i s) ∨
        (∃ x, s.phase = .locating x ∧ t = locateStep x s) ∨
        (s.phase = .idle ∧ s.cmdValid = true ∧ ∃ why, decode s.cmd = .illegal why ∧
          t = raiseUsageFault .illegalCommand (takeCommand s)) ∨
        (s.phase = .idle ∧ s.cmdValid = true ∧ ∃ i, decode s.cmd = .command i ∧ exec i s = .next t) ∨
        (s.phase = .idle ∧ s.cmdValid = false ∧ t = presentNext s)) := by
  unfold step at h
  split at h
  · cases h
  · next hf =>
    refine ⟨by simpa using hf, ?_⟩
    split at h
    · next i hp => exact .inl ⟨i, hp, by simpa using h.symm⟩
    · next x hp => exact .inr (.inl ⟨x, hp, by simpa using h.symm⟩)
    · next hp =>
      split at h
      · next hv =>
        unfold acceptWord at h
        split at h
        · next i hd => exact .inr (.inr (.inr (.inl ⟨hp, hv, i, hd, h⟩)))
        · next why hd =>
          exact .inr (.inr (.inl ⟨hp, hv, why, hd, by simpa [acceptIllegal] using h.symm⟩))
      · next hv => exact .inr (.inr (.inr (.inr ⟨hp, by simpa using hv, by simpa using h.symm⟩)))

/-- A step of each kind, forwards. -/
theorem step_spinPause (s : State) (i : Nat) (hf : s.fault = 0) (hp : s.phase = .spinPause i) :
    step s = .next (spinUpStep i s) := by
  simp [step, hf, hp]

theorem step_locating (s : State) (x : Sector) (hf : s.fault = 0) (hp : s.phase = .locating x) :
    step s = .next (locateStep x s) := by
  simp [step, hf, hp]

theorem step_command (s : State) (i : Instr) (hf : s.fault = 0) (hp : s.phase = .idle) (hv : s.cmdValid = true)
    (hd : decode s.cmd = .command i) : step s = exec i s := by
  simp [step, hf, hp, hv, acceptWord, hd]

theorem step_illegal (s : State) (why : IllegalWord) (hf : s.fault = 0) (hp : s.phase = .idle)
    (hv : s.cmdValid = true) (hd : decode s.cmd = .illegal why) :
    step s = .next (raiseUsageFault .illegalCommand (takeCommand s)) := by
  simp [step, hf, hp, hv, acceptWord, hd, acceptIllegal]

theorem step_present (s : State) (hf : s.fault = 0) (hp : s.phase = .idle) (hv : s.cmdValid = false) :
    step s = .next (presentNext s) := by
  simp [step, hf, hp, hv]

/-! ### Runs -/

@[simp] theorem run_zero (s : State) : run 0 s = .next s := rfl

theorem run_succ_next (k : Nat) (s t : State) (h : step s = .next t) : run (k + 1) s = run k t := by
  rw [run, h]

/-- The host's run, one step at a time, of any machine. -/
theorem host_run_succ (M : Host.Core) (k : Nat) (s : M.State) :
    M.run (k + 1) s =
      Host.Outcome.casesOn (M.step s) (fun t => M.run k t) (fun r => .fault r) (fun r => .refused r) := by
  rw [Host.Core.run]
  cases M.step s <;> rfl

/-- `run` is the host's run of this machine. -/
theorem run_eq_host (k : Nat) (s : State) : run k s = Host.Core.run Sys2Proof.core k s := by
  induction k generalizing s with
  | zero => rfl
  | succ k ih =>
    refine Eq.trans ?_ (host_run_succ Sys2Proof.core k s).symm
    show run (k + 1) s = Host.Outcome.casesOn (step s) (fun t => Host.Core.run Sys2Proof.core k t)
      (fun r => .fault r) (fun r => .refused r)
    rw [run]
    cases step s with
    | next t => exact ih t
    | fault r => rfl
    | refused r => rfl

/-- A run of one step. -/
theorem run_one (s : State) : run 1 s = step s := by
  rw [run]
  cases step s <;> rfl

/-- A run that answers a next state begins with a step that does. -/
theorem run_succ_cases (k : Nat) (s t : State) (h : run (k + 1) s = .next t) :
    ∃ u, step s = .next u ∧ run k u = .next t := by
  rw [run] at h
  split at h
  · exact ⟨_, ‹_›, h⟩
  · cases h
  · cases h

/-- A run of `j` steps and then of `k`. -/
theorem run_add (j k : Nat) (s t : State) (h : run j s = .next t) : run (j + k) s = run k t := by
  induction j generalizing s with
  | zero => rw [Nat.zero_add, Host.Outcome.next.inj h]
  | succ j ih =>
    obtain ⟨u, hs, hu⟩ := run_succ_cases j s t h
    rw [show j + 1 + k = (j + k) + 1 by omega, run_succ_next _ s u hs]
    exact ih u hu

end Sys2Proof.Machine
end

