-- ==== Sys2Proof/Tests/Slice0.lean ====
section
/-! SUPPORT. Tests: the smoke test of the well-formedness check, command words written out from the spec's field table, one
step per case with the result the spec gives (the vectors of 95_test_vectors.md by their names), and for each statement with
hypotheses a state and operands that meet them. -/

namespace Sys2Proof.Tests

open Sys2Proof Sys2Proof.Machine

/-! ### Well-formedness (R55): one ill-formed term for each check, and the boundary -/

theorem test_wf_refuses_locate_4096 : (Instr.locate 4096).wellFormed = false := by decide
theorem test_wf_refuses_read_4096 : (Instr.read 4096).wellFormed = false := by decide
theorem test_wf_refuses_write_65535 : (Instr.write 65535 1).wellFormed = false := by decide
theorem test_wf_refuses_pcLoad_4096 : (Instr.pcLoad 4096).wellFormed = false := by decide
theorem test_wf_admits_4095 : (Instr.locate 4095).wellFormed = true ∧ (Instr.pcLoad 4095).wellFormed = true := by decide

/-! ### Decoding (R52): op, rsv, arg and data written out bit by bit -/

/-- A word from the pattern string of R52. -/
def bits (op rsv : BitVec 8) (arg : BitVec 16) (data : BitVec 32) : CmdWord := op ++ rsv ++ arg ++ data

theorem test_decode_spinUp : decode (bits 0b00000001 0 0b0001001000110100 0) = .command .spinUp := by decide
theorem test_decode_rotate :
    decode (bits 0b00000010 0 0b1111111111111111 0b11111111111111111111111111111111) = .command .rotate := by decide
theorem test_decode_locate : decode (bits 0b00000011 0 0b0000111111111111 0) = .command (.locate 4095) := by decide
theorem test_decode_read :
    decode (bits 0b00000100 0 0b0000000000001010 0b11011110101011011011111011101111) = .command (.read 10) := by decide
theorem test_decode_write :
    decode (bits 0b00000101 0 0b0000000001100101 0b10000000000000000000000000100010) =
      .command (.write 101 0x80000022) := by decide
theorem test_decode_wipe : decode (bits 0b00000110 0 0 0) = .command .wipe := by decide
theorem test_decode_pcLoad : decode (bits 0b00000111 0 0b0000000001100100 0) = .command (.pcLoad 100) := by decide
theorem test_decode_illegal_op : decode (bits 0b11111111 0 0 0) = .illegal .unknownOpcode := by decide
theorem test_decode_illegal_rsv : decode (bits 0b00000100 0b00000001 0 0) = .illegal .reservedNonzero := by decide
theorem test_decodeTableWord : decodeTableWord 64 0x0500000AFFFFFFFF = some (.write 10 0xFFFFFFFF) := by decide

/-! ### One step each -/

/-- A Spinning unit: `pc`, `cs` and a command word on the port. -/
def spun (pc cs : Sector) (w : CmdWord) : State :=
  { State.reset with spinning := true, pc := pc, cs := cs, cmd := w, cmdValid := true }

/-- The unit after RESET with a command word on the port. -/
def unspun (w : CmdWord) : State := { State.reset with cmd := w, cmdValid := true }

/-- A property of the next state; false of a stop. -/
def after (o : Host.Outcome State Fault Refusal) (p : State → Bool) : Bool :=
  match o with
  | .next t => p t
  | .fault _ => false
  | .refused _ => false

/-- R70: `SPIN_UP` from reset begins its pauses, and READY falls. -/
theorem test_spinUp_begins :
    after (step (unspun 0x0100000000000000)) (fun t => t.phase = .spinPause 0 ∧ outReady t = 0) = true := by decide
/-- Vector U4: the last step of a restart, drawing 2000. -/
theorem test_spinUp_finishes :
    after (step { spun 100 7 0 with phase := .spinPause 5, rngAnswers := [2000], mem := [(40, 0x78)] })
      (fun t => t.cs = 2000 ∧ t.pc = 0 ∧ t.mem = [(40, 0x78)]) = true := by decide
/-- Vector T2: the wrap from 4095 to 0, with its two events in order. -/
theorem test_rotate_wraps :
    after (step (spun 0 4095 0x0200000000000000)) (fun t => t.cs = 0 ∧ t.trace = [.rotate 0, .delay 4]) = true := by decide
/-- Vector T4. -/
theorem test_rotate_unpowered :
    after (step (unspun 0x0200000000000000)) (fun t => t.fault = 2 ∧ t.cs = 0 ∧ t.rsp = 0x200000000) = true := by decide
/-- Vector L10: fault 3, no rotation. -/
theorem test_locate_4096 :
    after (step (spun 0 5 0x0300100000000000)) (fun t => t.fault = 3 ∧ t.cs = 5 ∧ t.trace = []) = true := by decide
/-- R80: the step at the target completes without a rotation. -/
theorem test_locate_at_target :
    after (step { spun 0 10 0 with phase := .locating 10 }) (fun t => t.phase = .idle ∧ t.trace = []) = true := by decide
/-- Vector A16, with `READ 4096`. -/
theorem test_read_4096 :
    after (step (spun 0 500 0x0400100000000000)) (fun t => t.fault = 3 ∧ t.rsp = 0x300000000) = true := by decide
/-- R85's example: `mem[10] = 0x7FFFFFFF`. -/
theorem test_read_10 :
    after (step { spun 0 500 0x0400000A00000000 with mem := [(40, 0xFF), (41, 0xFF), (42, 0xFF), (43, 0x7F)] })
      (fun t => t.rsp = 0x07FFFFFFF ∧ t.cs = 500) = true := by decide
/-- Vector A6: bit 31 dropped, the low byte at the lowest address. -/
theorem test_write_deadbeef :
    after (step (spun 0 500 0x050000FFDEADBEEF))
      (fun t => memRead t.mem 255 = 0x5EADBEEF ∧ t.mem.readByte 1020 = 0xEF) = true := by decide
/-- Vector A15: `WRITE 4096` does not wrap to sector 0. -/
theorem test_write_4096 :
    after (step (spun 0 500 0x0500100000000001)) (fun t => t.fault = 3 ∧ memRead t.mem 0 = 0) = true := by decide
/-- Vector W1. -/
theorem test_wipe :
    after (step { spun 102 10 0x0600000000000000 with mem := [(40, 0xFF)] })
      (fun t => unitOf t = unitOf State.reset ∧ t.rsp = 0) = true := by decide
/-- Vectors C3 and C4. -/
theorem test_pcLoad_4095 : after (step (spun 0 9 0x07000FFF00000000)) (fun t => t.pc = 4095 ∧ t.cs = 9) = true := by decide
theorem test_pcLoad_4096 : after (step (spun 7 9 0x0700100000000000)) (fun t => t.fault = 4 ∧ t.pc = 7) = true := by decide
/-- Vector L14: the Spinning check before the range check. -/
theorem test_check_order : after (step (unspun 0x0300138800000000)) (fun t => decide (t.fault = 2)) = true := by decide
/-- Vector F2. -/
theorem test_illegal : after (step (unspun 0x0800000000000000)) (fun t => decide (t.fault = 5)) = true := by decide
/-- Vector F4. -/
theorem test_faulted_stops :
    (match step { spun 0 0 0x0600000000000000 with fault := 2 } with
      | .fault (.halted c) => decide (c = 2)
      | .next _ => false
      | .refused _ => false) = true := by decide

/-! ### The caller's text (R67) -/

theorem test_readLine_write :
    readLine "WRITE 10, 0xFFFF_FFFF ; comment".toList = some (.command (.write 10 0xFFFFFFFF)) := by decide
theorem test_readLine_refuses_field_overflow : readLine "LOCATE 65536".toList = none := by decide
theorem test_expand_fetch : expandLine 5 .fetch = [.locate 5, .read 5] := by decide
theorem test_readText : readText "RESET ; a run\nSPIN_UP".toList = some [.reset, .command .spinUp] := by decide
/-- R67, R130 and vector F5: a `RESET` line is the reset input, and the word a Faulted unit left waiting is gone. -/
theorem test_reset_line :
    after (runText [.reset] { spun 3 4 0 with fault := 2, script := [0x0100000000000000] })
      (fun t => unitOf t = unitOf State.reset ∧ t.script = [] ∧ t.cmdValid = false) = true := by decide
/-- Vector P4, then a new run: each line runs to its end before the next. -/
theorem test_runText :
    after (runText [.reset, .command (.read 0), .command .spinUp, .reset, .command .spinUp]
      { State.reset with rngAnswers := [77] }) (fun t => t.fault = 0 ∧ t.spinning = true ∧ t.cs = 77) = true := by decide

/-! ### Witnesses: the hypotheses of each statement met together, each clause at a boundary of its range -/

/-- A Spinning unit with the highest slot written and the head at the last sector. -/
def written (w : CmdWord) : State := { spun 0 4095 w with mem := memWrite memClear 4095 0xFFFFFFFF }

theorem written_inv (w : CmdWord) : UnitInv (written w) where
  mem_wf := wf_memWrite _ _ _ wf_clear
  spacer := spacerClear_memWrite _ _ _ wf_clear spacerClear_clear
  baseline := fun h => by simp [written, spun] at h
  fault_legal := .inl rfl
  fault_idle := fun _ => rfl
  phase_legal := trivial
  busy_silent := fun _ => rfl
  rsp_status := fun h => by simp [written, spun, State.reset] at h
  rsp_spacer := fun h => by simp [written, spun, State.reset] at h
  fault_shown := fun h => by simp [written, spun, State.reset] at h
  params_ok := show Config.suggestedParams.ok by decide

theorem witness_WordsDecodeByTheirUsedFieldsOnly :
    decode 0x0200FFFFFFFFFFFF = .command .rotate ∧ (0x0200FFFFFFFFFFFF : CmdWord) &&& usedMask .rotate = encode .rotate := by
  decide
/-- Clauses: opcode 0, opcode 8, reserved field 1; each in a ready unit; and a legal word that raises another fault. -/
theorem witness_IllegalWordsRaiseIllegalCommand :
    ((0 : CmdWord).toNat / 2 ^ 56 = 0) ∧ (8 ≤ (0x0800000000000000 : CmdWord).toNat / 2 ^ 56) ∧
    ((0x0401000000000000 : CmdWord).toNat / 2 ^ 48 % 256 ≠ 0) ∧
    (unspun 0).ready = true ∧ (unspun 0).cmdValid = true ∧ (∃ why, decode (unspun 0).cmd = .illegal why) ∧
    (∃ why, decode (unspun 0x0800000000000000).cmd = .illegal why) ∧
    (∃ why, decode (unspun 0x0401000000000000).cmd = .illegal why) ∧
    decode (spun 0 0 0x0400100000000000).cmd = .command (.read 4096) := by
  refine ⟨by decide, by decide, by decide, by decide, by decide, ⟨.unknownOpcode, by decide⟩, ⟨.unknownOpcode, by decide⟩,
    ⟨.reservedNonzero, by decide⟩, by decide⟩
theorem witness_StepRunsTheDecodedCommand :
    (spun 0 0 0x03000FFF00000000).ready = true ∧ (spun 0 0 0x03000FFF00000000).cmdValid = true ∧
    decode (spun 0 0 0x03000FFF00000000).cmd = .command (.locate 4095) ∧
    decodeTableWord 64 0x0700000000000000 = some (.pcLoad 0) := by decide
theorem witness_ReadyUnitTakesTheCallersNextWord :
    State.reset.ready = true ∧ State.reset.cmdValid = false ∧ State.reset.script = [] ∧
    ({ State.reset with script := [1] }).script = 1 :: [] := by decide
/-- Clauses: the first pause, the last step, a rotation, the completing step. -/
theorem witness_BusyUnitHoldsThePort :
    ({ unspun 1 with phase := .spinPause 0 }).phase ≠ .idle ∧ ({ unspun 1 with phase := .spinPause 5 }).phase ≠ .idle ∧
    ({ spun 0 9 1 with phase := .locating 10 }).phase ≠ .idle ∧ ({ spun 0 9 1 with phase := .locating 9 }).phase ≠ .idle ∧
    (spun 0 9 1).fault = 0 ∧ (unspun 1).fault = 0 := by decide
theorem witness_ResetClearsFaulted :
    ({ spun 3 4 0 with fault := 2 }).phase = .idle ∧ ({ spun 3 4 0 with phase := .locating 5 }).phase ≠ .idle := by decide
theorem witness_ResetMeetsTheInvariant : ({ tSectorUs := 1, tRevUs := 1, spinupPausesUs := [1] } : Config.Params).ok := by
  decide
theorem witness_EveryStepKeepsTheInvariant :
    UnitInv (written 0x0500000080000001) ∧ ∃ t, step (written 0x0500000080000001) = .next t := ⟨written_inv _, _, rfl⟩
theorem witness_ReachableStatesKeepTheBaseline :
    Config.suggestedParams.ok ∧
    ∃ t, run 2 { State.resetWith Config.suggestedParams with script := [0x0600000000000000], rngAnswers := [7], drawCount := 0 } =
      .next t ∧ t.spinning = false := ⟨by decide, _, rfl, rfl⟩
theorem witness_CanonicalMemoriesThatReadAlikeAreEqual :
    Memory.wf [(0, 1), (16383, 0x7F)] ∧ ∀ a, Memory.readByte [(0, 1), (16383, 0x7F)] a = Memory.readByte [(0, 1), (16383, 0x7F)] a :=
  ⟨by decide, fun _ => rfl⟩
theorem witness_RotationalDistanceLaws :
    (0 : Sector).toNat ≤ (4095 : Sector).toNat ∧ (0 : Sector).toNat < (4095 : Sector).toNat ∧ (0 : Sector) ≠ 4095 := by decide
theorem witness_RotateAdvancesTheHeadByOne : (spun 0 4095 0).spinning = true ∧ (unspun 0).spinning = false := by decide
/-- Clauses of the four ranged commands: 0 and 4095 in range, 4096 and 65535 out of range, Spinning and not. -/
theorem witness_ranges :
    (spun 0 0 0).spinning = true ∧ (unspun 0).spinning = false ∧ (0 : Arg).toNat ≤ 4095 ∧ (4095 : Arg).toNat ≤ 4095 ∧
    4095 < (4096 : Arg).toNat ∧ 4095 < (65535 : Arg).toNat := by decide
theorem witness_ReadAnswersTheSlotAndChangesNothing :
    (written 0).spinning = true ∧ (4095 : Arg).toNat ≤ 4095 ∧ memRead (written 0).mem (sectorOf 4095) = 0x7FFFFFFF ∧
    memRead (written 0).mem (sectorOf 0) = 0 := by decide
theorem witness_WriteStoresTheNormalizedWord :
    (written 0).mem.wf ∧ (written 0).spinning = true ∧ (4095 : Arg).toNat ≤ 4095 := ⟨(written_inv 0).mem_wf, rfl, by decide⟩
/-- A unit after RESET with a command on the port. -/
theorem unspun_inv (w : CmdWord) : UnitInv (unspun w) where
  mem_wf := wf_clear
  spacer := spacerClear_clear
  baseline := fun _ => ⟨rfl, rfl, rfl⟩
  fault_legal := .inl rfl
  fault_idle := fun _ => rfl
  phase_legal := trivial
  busy_silent := fun _ => rfl
  rsp_status := fun h => by simp [unspun, State.reset] at h
  rsp_spacer := fun h => by simp [unspun, State.reset] at h
  fault_shown := fun h => by simp [unspun, State.reset] at h
  params_ok := show Config.suggestedParams.ok by decide
theorem witness_WipeInUnpoweredChangesNothing :
    UnitInv (unspun 0) ∧ (unspun 0).spinning = false ∧ UnitInv (written 0) ∧ (written 0).spinning = true :=
  ⟨unspun_inv 0, rfl, written_inv 0, rfl⟩
theorem witness_WipeZeroesEverything : (written 0).fault = 0 := rfl
theorem witness_SpinUpRunsItsPausesThenFinishes :
    (unspun 0).ready = true ∧ 0 ≤ (unspun 0).params.spinupPausesUs.length ∧
    5 ≤ (unspun 0).params.spinupPausesUs.length := by decide
theorem witness_LocatingReachesTheTarget :
    ({ spun 0 4095 0 with phase := .locating 1 }).fault = 0 ∧ ({ spun 0 4095 0 with phase := .locating 1 }).phase = .locating 1 ∧
    (0 ≤ sectorDist 4095 1) ∧ 2 ≤ sectorDist 4095 1 := by decide
/-- Clauses: the target under the head, and the worst case (vector L3). -/
theorem witness_LocateCostsTheRotationalDistance :
    (spun 0 1 0).ready = true ∧ (spun 0 1 0).spinning = true ∧ (1 : Arg).toNat ≤ 4095 ∧
    ((0 : Nat) : Int) = (((1 : Arg).toNat : Int) - (spun 0 1 0).cs.toNat) % 4096 ∧
    ((4095 : Nat) : Int) = (((0 : Arg).toNat : Int) - (spun 0 1 0).cs.toNat) % 4096 := by decide
/-- A Spinning unit at the last sector whose caller has three words to present, two of them `ROTATE`. -/
def rotating : State :=
  { spun 0 4095 0 with cmdValid := false, script := [0x0200000000000000, 0x0200FFFFFFFFFFFF, 7] }
theorem witness_RotatesCloseTheRevolution :
    rotating.ready = true ∧ rotating.spinning = true ∧ rotating.cmdValid = false ∧
    ([0x0200000000000000, 0x0200FFFFFFFFFFFF] : List CmdWord).length = 2 ∧
    (∀ w ∈ ([0x0200000000000000, 0x0200FFFFFFFFFFFF] : List CmdWord), decode w = .command .rotate) ∧
    rotating.script = [0x0200000000000000, 0x0200FFFFFFFFFFFF] ++ [7] := by
  refine ⟨by decide, rfl, rfl, rfl, fun w hw => ?_, rfl⟩
  rcases List.mem_cons.1 hw with rfl | hw
  · decide
  · rw [List.mem_singleton.1 hw]; decide
theorem witness_revolution_of_words :
    (List.replicate 4096 (encode .rotate)).length = 4096 ∧
    ∀ w ∈ List.replicate 4096 (encode .rotate), decode w = .command .rotate :=
  ⟨List.length_replicate, fun w hw => by rw [List.eq_of_mem_replicate hw]; decide⟩
theorem witness_SmallStepsAgreeWithTheBigStep :
    (spun 0 4090 0x0300000A00000000).ready = true ∧ (spun 0 4090 0x0300000A00000000).cmdValid = true := by decide
/-- Clauses: a command that faults, and one that passes for each opcode. -/
theorem witness_RequestedDelayOfEachCommand :
    check (unspun 0x0200000000000000) (decode 0x0200000000000000) = some .notSpinning ∧
    check (unspun 0) (decode 0x0100000000000000) = none ∧ check (spun 0 0 0) (decode 0x0200000000000000) = none ∧
    check (spun 0 0 0) (decode 0x03000FFF00000000) = none ∧ check (spun 0 0 0) (decode 0x04000FFF00000000) = none ∧
    check (spun 0 0 0) (decode 0x05000FFF00000000) = none ∧ check (spun 0 0 0) (decode 0x0600000000000000) = none ∧
    check (spun 0 0 0) (decode 0x07000FFF00000000) = none := by decide
theorem witness_AlignedReadCostsItsRotationalDistance :
    ({ written 0 with cmdValid := false }).ready = true ∧ ({ written 0 with cmdValid := false }).script = [] ∧
    (written 0).spinning = true ∧ (4094 : Arg).toNat ≤ 4095 ∧
    ((4095 : Nat) : Int) = (((4094 : Arg).toNat : Int) - (written 0).cs.toNat) % 4096 := by decide
theorem witness_EveryCommandInProgressCompletes : UnitInv (written 0) ∧ (written 0).fault = 0 := ⟨written_inv 0, rfl⟩
/-- Clauses: each code, at a boundary of its range. -/
theorem witness_ChecksAreMadeInOrder :
    (unspun 0x0800000000000000).ready = true ∧ (unspun 0x0800000000000000).cmd.toNat / 2 ^ 56 = 8 ∧
    (unspun 0x0300100000000000).cmd.toNat / 2 ^ 32 % 65536 = 4096 ∧ (spun 0 0 0x0700100000000000).cmd.toNat / 2 ^ 56 = 7 ∧
    (spun 0 0 0x0500100000000000).cmd.toNat / 2 ^ 32 % 65536 = 4096 ∧
    (spun 0 0 0x07000FFF00000000).cmd.toNat / 2 ^ 32 % 65536 = 4095 := by decide
theorem witness_WellFormedCommandsRaiseNoFault : (spun 0 0 0).fault = 0 ∧ (spun 0 0 0).spinning = true := by decide
theorem witness_FaultsArePreciseAndFinal : ∃ t, step (spun 3 4 0) = .next t ∧ t.fault ≠ 0 := ⟨_, rfl, by decide⟩
theorem witness_OnlyAFaultedUnitStops : (spun 0 0 0).fault = 0 ∧ ({ spun 0 0 0 with fault := 5 }).fault ≠ 0 := by decide
/-- A unit as `written`, still showing the response of the command before. -/
def answering (w : CmdWord) : State := { written w with rspValid := true, rsp := rspWord 0 0x7FFFFFFF }
theorem answering_inv (w : CmdWord) : UnitInv (answering w) :=
  { written_inv w with
    busy_silent := fun h => absurd rfl h
    rsp_status := fun _ => by show rspStatus (rspWord 0 0x7FFFFFFF) = 0; decide
    rsp_spacer := fun _ => by show (rspData (rspWord 0 0x7FFFFFFF)).getLsbD 31 = false; decide
    fault_shown := fun _ => rfl }
/-- Clauses: a response of status 0, and one of another status; each of a command accepted while the previous response is
still shown. -/
theorem witness_ResponsesEndTheirCommands :
    (UnitInv (answering 0x0600000000000000) ∧ (answering 0x0600000000000000).rspValid = true ∧
      ∃ t, step (answering 0x0600000000000000) = .next t ∧ t.rspValid = true ∧ rspStatus t.rsp = 0) ∧
    (UnitInv (answering 0x0300100000000000) ∧
      ∃ t, step (answering 0x0300100000000000) = .next t ∧ t.rspValid = true ∧ rspStatus t.rsp ≠ 0) :=
  ⟨⟨answering_inv _, rfl, _, rfl, rfl, by decide⟩, answering_inv _, _, rfl, rfl, by decide⟩
/-- Clauses: a rotation, the last step of a `SPIN_UP`, a `WIPE`. -/
theorem witness_HeadMovesOnlyByRotationSpinUpOrWipe :
    (∃ t, step (spun 0 4095 0x0200000000000000) = .next t ∧ t.cs = 0) ∧
    (∃ t, step { unspun 0 with phase := .spinPause 5, rngAnswers := [4090] } = .next t ∧ t.cs = 4090) ∧
    (∃ t, step (spun 0 7 0x0600000000000000) = .next t ∧ t.cs = 0) ∧ ∃ t, applyReset (spun 0 7 0) = .next t :=
  ⟨⟨_, rfl, by decide⟩, ⟨_, rfl, rfl⟩, ⟨_, rfl, rfl⟩, _, rfl⟩
theorem witness_ProgramCounterChangesOnlyBySpinUpWipePcLoad :
    (∃ t, step (spun 1 0 0x07000FFF00000000) = .next t ∧ t.pc = 4095) ∧
    (∃ t, step (spun 9 7 0x0600000000000000) = .next t ∧ t.pc = 0) ∧
    ∃ t, step { spun 9 7 0 with phase := .spinPause 5 } = .next t ∧ t.pc = 0 :=
  ⟨⟨_, rfl, by decide⟩, ⟨_, rfl, rfl⟩, _, rfl, rfl⟩
theorem witness_SlotsChangeOnlyByWriteOrWipe :
    (written 0x05000FFF00000001).mem.wf ∧ ∃ t, step (written 0x05000FFF00000001) = .next t ∧ memRead t.mem 4095 = 1 :=
  ⟨(written_inv _).mem_wf, _, rfl, by decide⟩
/-- Clauses: to Spinning, to Unpowered, to Faulted. -/
theorem witness_LifecycleMovesAsTheStateMachine :
    (∃ t, step { unspun 0 with phase := .spinPause 5, rngAnswers := [0] } = .next t ∧ lifecycle t = .spinning) ∧
    (∃ t, step (spun 0 0 0x0600000000000000) = .next t ∧ lifecycle t = .unpowered) ∧
    ∃ t, step (unspun 0x0400000000000000) = .next t ∧ lifecycle t = .faulted :=
  ⟨⟨_, rfl, by decide⟩, ⟨_, rfl, by decide⟩, _, rfl, by decide⟩
/-- Vector A14's shape: a write, a `ROTATE` presented and run, and the sector read. -/
theorem witness_ReadReturnsTheLatestWrite :
    (written 0).mem.wf ∧ (written 0).spinning = true ∧ (4095 : Arg).toNat ≤ 4095 ∧
    ∃ t u, exec (.write 4095 0x80000003) { written 0 with script := [0x0200000000000000] } = .next t ∧ run 1 t = .next u ∧
      (∀ m w, m < 1 → run m t = .next w → ¬ Accepts w .wipe ∧ ∀ v', ¬ Accepts w (.write 4095 v')) ∧ u.spinning = true := by
  refine ⟨(written_inv 0).mem_wf, rfl, by decide, _, _, rfl, rfl, fun m w hm hw => ?_, rfl⟩
  obtain rfl : m = 0 := by omega
  obtain rfl := Host.Outcome.next.inj hw
  exact ⟨fun h => Bool.false_ne_true h.2.1, fun v' h => Bool.false_ne_true h.2.1⟩
/-- Clauses: a rotation, and a pause of another duration. -/
theorem witness_DurationsDoNotAffectState :
    ([9, 9, 9, 9, 9] : List Nat).length = (spun 0 4095 0x0200000000000000).params.spinupPausesUs.length ∧
    (∃ t, step (spun 0 4095 0x0200000000000000) = .next t) ∧ ∃ t, step { unspun 0 with phase := .spinPause 4 } = .next t :=
  ⟨by decide, ⟨_, rfl⟩, _, rfl⟩
/-- Clauses: a Faulted unit with a word waiting, a unit at work, a line of two commands. -/
theorem witness_ResetLineIsTheResetInput :
    ({ spun 3 4 0 with fault := 2, script := [1] }).phase = .idle ∧
    ({ spun 3 4 0 with phase := .locating 5 }).phase ≠ .idle ∧ SourceLine.aread 4095 ≠ .reset := by decide
theorem witness_ResetLineThenSpinUpLineBoots : ({ spun 3 4 0 with fault := 2 }).phase = .idle := by decide
theorem witness_IssuedWordsRunToTheirEnd :
    UnitInv (written 0) ∧ ∃ t, settle (settleBound (written 0)) (written 0) = .next t ∧ t.fault = 5 :=
  ⟨written_inv 0, _, rfl, by decide⟩
theorem witness_SpinUpEndsAtAnyAnsweredPosition : (spun 100 7 0).ready = true := by decide

end Sys2Proof.Tests
end

