-- ==== Sys2Proof/Proofs/StepForms.lean ====
section
/-! SUPPORT. The forms a step can have, as one relation, and the induction along a run. -/

namespace Sys2Proof.Machine

/-- From `s` the machine steps to `t`, by the form of the step: an internal step of a command in progress (R71, R80), the
acceptance of the word on the port with its fault or its effect (R65, R109), or the caller's step (R19). -/
inductive StepForm (s : State) : State → Prop where
  /-- The next pause of a `SPIN_UP` (R71). -/
  | pause (i d : Nat) (hf : s.fault = 0) (hp : s.phase = .spinPause i) (hd : s.params.spinupPausesUs[i]? = some d) :
      StepForm s (emitEvent (.delay d) { s with phase := .spinPause (i + 1) })
  /-- The last step of a `SPIN_UP` (R71). -/
  | finish (h : FinishesSpinUp s) : StepForm s (finishSpinUp s)
  /-- A `LOCATE` at its target (R80). -/
  | arrive (x : Sector) (hf : s.fault = 0) (hp : s.phase = .locating x) (hx : s.cs = x) :
      StepForm s (respond 0 0 { s with phase := .idle })
  /-- A `LOCATE` not yet at its target (R80). -/
  | search (x : Sector) (hf : s.fault = 0) (hp : s.phase = .locating x) (hx : s.cs ≠ x) : StepForm s (rotationStep s)
  /-- A word accepted that fails a check (R107, R109). -/
  | raise (f : UsageFault) (hr : s.ready = true) (hv : s.cmdValid = true) (hc : check s (decode s.cmd) = some f) :
      StepForm s (raiseUsageFault f (takeCommand s))
  /-- A command accepted that passes its checks (R65). -/
  | effect (i : Instr) (h : Accepts s i) : StepForm s (effectOf i (takeCommand s))
  /-- The caller's step (R19). -/
  | present (hr : s.ready = true) (hv : s.cmdValid = false) : StepForm s (presentNext s)

/-- Every step that answers a next state has one of the forms. -/
theorem stepForm_of_step {s t : State} (h : step s = .next t) : StepForm s t := by
  obtain ⟨hf, ⟨i, hp, rfl⟩ | ⟨x, hp, rfl⟩ | ⟨hp, hv, why, hd, rfl⟩ | ⟨hp, hv, i, hd, he⟩ | ⟨hp, hv, rfl⟩⟩ :=
    step_cases s t h
  · obtain ⟨d, hd, heq⟩ | ⟨hi, heq⟩ := spinUpStep_cases i s
    · exact heq ▸ .pause i d hf hp hd
    · exact heq ▸ .finish ⟨hf, i, hp, hi⟩
  · obtain ⟨hx, heq⟩ | ⟨hx, heq⟩ := locateStep_cases x s
    · exact heq ▸ .arrive x hf hp hx
    · exact heq ▸ .search x hf hp hx
  · exact .raise .illegalCommand ((ready_iff s).2 ⟨hf, hp⟩) hv (by rw [hd]; rfl)
  · have hr := (ready_iff s).2 ⟨hf, hp⟩
    obtain ⟨f, hc, rfl⟩ | ⟨hc, rfl⟩ := exec_cases i s t he
    · exact .raise f hr hv (by rw [hd]; exact hc)
    · exact .effect i ⟨hr, hv, hd, hc⟩
  · exact .present ((ready_iff s).2 ⟨hf, hp⟩) hv

/-- What every step keeps, a run keeps. -/
theorem run_keeps (P : State → Prop) (hstep : ∀ s t, P s → step s = .next t → P t) (n : Nat) {s t : State} (hs : P s)
    (h : run n s = .next t) : P t := by
  induction n generalizing s with
  | zero => exact Host.Outcome.next.inj h ▸ hs
  | succ n ih =>
    obtain ⟨u, hu, hrun⟩ := run_succ_cases n s t h
    exact ih (hstep s u hs hu) hrun

end Sys2Proof.Machine
end

