-- ==== Sys2Proof/Proofs/Invariant.lean ====
section
/-! SUPPORT. The invariant of R23 to R26 holds after RESET, and each form of step keeps it. -/

namespace Sys2Proof.Machine

/-- The state of R131 meets the invariant, for all parameters R6 and R7 allow. -/
theorem unitInv_resetWith {p : Config.Params} (hp : p.ok) : UnitInv (State.resetWith p) where
  mem_wf := wf_clear
  spacer := spacerClear_clear
  baseline := fun _ => ⟨rfl, rfl, rfl⟩
  fault_legal := .inl rfl
  fault_idle := fun _ => rfl
  phase_legal := trivial
  busy_silent := fun _ => rfl
  rsp_status := fun h => absurd h Bool.false_ne_true
  rsp_spacer := fun h => absurd h Bool.false_ne_true
  fault_shown := fun h => absurd rfl h
  params_ok := hp

/-- Every code a check can raise is one the fault register may hold (R101, R107). -/
theorem faultLegal_of_check {s : State} {c : Decoded} {f : UsageFault} (h : check s c = some f) :
    FaultLegal (faultCode f) := by
  unfold FaultLegal
  obtain rfl | rfl | rfl | rfl := check_cases s c f h <;> simp [faultCode]

/-- A unit without a fault may respond with status 0 and data whose bit 31 is clear, once it is idle (R63). -/
theorem unitInv_respond {s : State} {data : Word} (hi : UnitInv s) (hf : s.fault = 0) (hp : s.phase = .idle)
    (hd : data.getLsbD 31 = false) : UnitInv (respond 0 data s) :=
  { hi with
    busy_silent := fun h => absurd hp h
    rsp_status := fun _ => (rspStatus_rspWord 0 data).trans hf.symm
    rsp_spacer := fun _ => (congrArg (·.getLsbD 31) (rspData_rspWord 0 data)).trans hd
    fault_shown := fun _ => rfl }

/-- The handshake of a ready unit keeps the invariant (R62). -/
theorem unitInv_takeCommand {s : State} (hi : UnitInv s) (hf : s.fault = 0) : UnitInv (takeCommand s) :=
  { hi with
    busy_silent := fun _ => rfl
    rsp_status := fun h => absurd h Bool.false_ne_true
    rsp_spacer := fun h => absurd h Bool.false_ne_true
    fault_shown := fun h => absurd hf h }

/-- Raising a fault that a check can answer keeps the invariant of an idle unit (R109). -/
theorem unitInv_raiseUsageFault {s : State} {f : UsageFault} (hi : UnitInv s) (hp : s.phase = .idle)
    (hl : FaultLegal (faultCode f)) : UnitInv (raiseUsageFault f s) :=
  { hi with
    fault_legal := hl
    fault_idle := fun _ => hp
    busy_silent := fun h => absurd hp h
    rsp_status := fun _ => rspStatus_rspWord (faultCode f) 0
    rsp_spacer := fun _ => (congrArg (·.getLsbD 31) (rspData_rspWord (faultCode f) 0)).trans rfl
    fault_shown := fun _ => rfl }

/-- A rotation step of a Spinning unit keeps the invariant (R75): the baseline of R26 asks nothing of it. -/
theorem unitInv_rotationStep {s : State} (hi : UnitInv s) (hs : s.spinning = true) : UnitInv (rotationStep s) :=
  { hi with baseline := fun h => absurd hs (Bool.eq_false_iff.1 h) }

/-- The effect of a command that passes its checks keeps the invariant of a ready unit whose port has been served (R65). -/
theorem unitInv_effectOf {s : State} (i : Instr) (hi : UnitInv s) (hf : s.fault = 0) (hp : s.phase = .idle)
    (hsil : s.rspValid = false) (hc : check s (.command i) = none) : UnitInv (effectOf i s) := by
  have spun : needsSpinning i = true → s.spinning ≠ false := fun hn => by simp [spinning_of_check s i hn hc]
  cases i with
  | spinUp =>
    exact { hi with
      fault_idle := fun h => absurd hf h
      phase_legal := Nat.zero_le _
      busy_silent := fun _ => hsil }
  | rotate => exact unitInv_respond (unitInv_rotationStep hi (spinning_of_check s _ rfl hc)) hf hp rfl
  | locate a =>
    exact { hi with
      fault_idle := fun h => absurd hf h
      phase_legal := spinning_of_check s _ rfl hc
      busy_silent := fun _ => hsil }
  | read a => exact unitInv_respond hi hf hp (normWord_spacer _)
  | write a v =>
    have written : UnitInv { s with mem := memWrite s.mem (sectorOf a) (normWord v) } :=
      { hi with
        mem_wf := wf_memWrite _ _ _ hi.mem_wf
        spacer := spacerClear_memWrite _ _ _ hi.mem_wf hi.spacer
        baseline := fun h => absurd h (spun rfl) }
    exact unitInv_respond written hf hp rfl
  | wipe =>
    have wiped : UnitInv { s with mem := memClear, pc := 0, cs := 0, spinning := false } :=
      { hi with
        mem_wf := wf_clear
        spacer := spacerClear_clear
        baseline := fun _ => ⟨rfl, rfl, rfl⟩
        phase_legal := by simp [PhaseLegal, hp] }
    exact unitInv_respond wiped hf hp rfl
  | pcLoad p =>
    have loaded : UnitInv { s with pc := sectorOf p } := { hi with baseline := fun h => absurd h (spun rfl) }
    exact unitInv_respond loaded hf hp rfl

/-- The last step of a `SPIN_UP` keeps the invariant: the unit spins from now on (R71). -/
theorem unitInv_finishSpinUp {s : State} (hi : UnitInv s) (hf : s.fault = 0) : UnitInv (finishSpinUp s) := by
  have spun : UnitInv { drawDone s with pc := 0, cs := drawValue s, spinning := true, phase := .idle } :=
    { hi with
      baseline := fun h => absurd h.symm Bool.false_ne_true
      fault_idle := fun _ => rfl
      phase_legal := trivial
      busy_silent := fun h => absurd rfl h }
  exact unitInv_respond spun hf rfl rfl

/-- The caller's step touches nothing the invariant speaks of (R19). -/
theorem unitInv_presentNext {s : State} (hi : UnitInv s) : UnitInv (presentNext s) := by
  obtain ⟨_, heq⟩ | ⟨w, ws, _, heq⟩ := presentNext_cases s
  · rwa [heq]
  · rw [heq]
    exact { hi with }

/-- Every step keeps the invariant. -/
theorem unitInv_of_step {s t : State} (hi : UnitInv s) (h : step s = .next t) : UnitInv t := by
  cases stepForm_of_step h with
  | pause i d hf hp hd =>
    have hlt : i < s.params.spinupPausesUs.length := (List.getElem?_eq_some_iff.1 hd).1
    exact { hi with
      fault_idle := fun h => absurd hf h
      phase_legal := hlt
      busy_silent := fun _ => hi.busy_silent (by simp [hp]) }
  | finish hfin => exact unitInv_finishSpinUp hi hfin.1
  | arrive x hf hp hx =>
    have idle : UnitInv { s with phase := .idle } :=
      { hi with fault_idle := fun _ => rfl, phase_legal := trivial, busy_silent := fun h => absurd rfl h }
    exact unitInv_respond idle hf rfl rfl
  | search x hf hp hx =>
    have hs : s.spinning = true := by simpa [PhaseLegal, hp] using hi.phase_legal
    exact unitInv_rotationStep hi hs
  | raise f hr hv hc =>
    obtain ⟨hf, hp⟩ := (ready_iff s).1 hr
    exact unitInv_raiseUsageFault (unitInv_takeCommand hi hf) hp (faultLegal_of_check hc)
  | effect i hacc =>
    obtain ⟨hr, hv, hd, hc⟩ := hacc
    obtain ⟨hf, hp⟩ := (ready_iff s).1 hr
    exact unitInv_effectOf i (unitInv_takeCommand hi hf) hf hp rfl hc
  | present hr hv => exact unitInv_presentNext hi

/-- Settles O13: the invariant of every run, read off at its end. -/
theorem reachableStatesKeepTheBaseline : Obligations.ReachableStatesKeepTheBaseline := by
  intro p ws rs d n t hp hrun
  have start : UnitInv { State.resetWith p with script := ws, rngAnswers := rs, drawCount := d } :=
    { unitInv_resetWith hp with }
  have hinv : UnitInv t := run_keeps UnitInv (fun _ _ => unitInv_of_step) n start hrun
  refine ⟨hinv.spacer, memRead_spacer t.mem, fun hs => ?_⟩
  obtain ⟨hpc, hcs, hmem⟩ := hinv.baseline hs
  exact ⟨hpc, hcs, fun x => hmem ▸ memRead_clear x⟩

end Sys2Proof.Machine
end

