-- ==== Sys2Proof/Proofs/Head.lean ====
section
/-! SUPPORT. Who moves the head (R25). -/

namespace Sys2Proof.Machine

/-- A presented word moves nothing of the unit. -/
@[simp] theorem presentNext_cs (s : State) : (presentNext s).cs = s.cs := by
  obtain ⟨_, heq⟩ | ⟨w, ws, _, heq⟩ := presentNext_cases s <;> rw [heq]

/-- RESET brings the head to 0 (R131). -/
theorem cs_of_applyReset {s t : State} (h : applyReset s = .next t) : t.cs = 0 := by
  by_cases hp : s.phase = .idle
  · rw [applyReset_idle s hp] at h
    exact Host.Outcome.next.inj h ▸ rfl
  · rw [applyReset_busy s hp] at h
    cases h

/-- A rotation step advances the head by one sector and emits its two events (R75). -/
theorem rotationStep_moves (s : State) :
    (rotationStep s).cs.toNat = (s.cs.toNat + 1) % 4096 ∧
      (rotationStep s).trace = s.trace ++ [.rotate (rotationStep s).cs, .delay s.params.tSectorUs] :=
  ⟨nextSector_toNat s.cs, by simp⟩

/-- Settles O39, by the form of the step and, for an accepted command, by the command. -/
theorem headMovesOnlyByRotationSpinUpOrWipe : Obligations.HeadMovesOnlyByRotationSpinUpOrWipe := by
  refine ⟨fun s t h => ?_, fun s t => cs_of_applyReset⟩
  cases stepForm_of_step h with
  | pause i d hf hp hd => exact .inl rfl
  | finish hfin => exact .inr (.inr (.inl ⟨hfin, rfl⟩))
  | arrive x hf hp hx => exact .inl rfl
  | search x hf hp hx => exact .inr (.inl ⟨.inr ⟨hf, x, hp, hx⟩, rotationStep_moves s⟩)
  | raise f hr hv hc => exact .inl rfl
  | present hr hv => exact .inl (presentNext_cs s)
  | effect i hacc =>
    cases i with
    | rotate => exact .inr (.inl ⟨.inl hacc, rotationStep_moves (takeCommand s)⟩)
    | wipe => exact .inr (.inr (.inr ⟨hacc, rfl⟩))
    | spinUp => exact .inl rfl
    | locate a => exact .inl rfl
    | read a => exact .inl rfl
    | write a v => exact .inl rfl
    | pcLoad p => exact .inl rfl

end Sys2Proof.Machine
end

