-- ==== Sys2Proof/Proofs/Distance.lean ====
section
/-! SUPPORT. The laws of rotational distance (R34). -/

namespace Sys2Proof.Machine

/-! ### The distance between two positions -/

/-- A target not behind the head is reached without passing 4095. -/
theorem sectorDist_of_le {c t : Sector} (h : c.toNat ≤ t.toNat) : sectorDist c t = t.toNat - c.toNat := by
  have := t.isLt
  simp only [sectorDist, Config.nSectors]
  omega

/-- A target behind the head is reached in the next revolution. -/
theorem sectorDist_of_lt {c t : Sector} (h : t.toNat < c.toNat) : sectorDist c t = t.toNat + 4096 - c.toNat := by
  have := c.isLt
  simp only [sectorDist, Config.nSectors]
  omega

/-- The distance is the difference of the positions modulo one revolution. -/
theorem sectorDist_eq_emod (c t : Sector) : (sectorDist c t : Int) = ((t.toNat : Int) - c.toNat) % 4096 := by
  have := c.isLt
  have := t.isLt
  obtain h | h := le_or_gt c.toNat t.toNat
  · rw [sectorDist_of_le h]
    omega
  · rw [sectorDist_of_lt h]
    omega

/-- The distance leads from the head to the target. -/
theorem add_sectorDist_mod (c t : Sector) : (c.toNat + sectorDist c t) % 4096 = t.toNat := by
  have := sectorDist_eq_emod c t
  have := t.isLt
  omega

/-- The way there and the way back make one revolution. -/
theorem sectorDist_add_sectorDist {c t : Sector} (h : c ≠ t) : sectorDist c t + sectorDist t c = 4096 := by
  have := c.isLt
  have := t.isLt
  obtain hlt | hlt := Nat.lt_or_gt_of_ne (BitVec.toNat_ne.1 h)
  · rw [sectorDist_of_le hlt.le, sectorDist_of_lt hlt]
    omega
  · rw [sectorDist_of_lt hlt, sectorDist_of_le hlt.le]
    omega

theorem nextSector_eq_add_one (c : Sector) : nextSector c = c + 1 := rfl

theorem ne_nextSector (c : Sector) : c ≠ nextSector c := fun h => by
  have := (congrArg BitVec.toNat h).trans (nextSector_toNat c)
  omega

/-- The next position is one step away. -/
theorem sectorDist_add_one (c : Sector) : sectorDist c (c + 1) = 1 := by
  rw [← nextSector_eq_add_one, sectorDist_nextSector c _ (ne_nextSector c), sectorDist_self]

/-- The position before is the worst case, one step short of a revolution. -/
theorem sectorDist_sub_one (c : Sector) : sectorDist c (c - 1) = 4095 := by
  have hprev : c - 1 + 1 = c := BitVec.sub_add_cancel c 1
  have hne : c ≠ c - 1 := fun h => ne_nextSector (c - 1) (by rw [nextSector_eq_add_one, hprev, ← h])
  have hback : sectorDist (c - 1) c = 1 := by simpa only [hprev] using sectorDist_add_one (c - 1)
  have := sectorDist_add_sectorDist hne
  omega

/-! ### The mean: each distance occurs once per revolution of either end -/

theorem sectorDist_injective_target (c : Sector) : Function.Injective (sectorDist c) := fun t t' h => by
  apply BitVec.eq_of_toNat_eq
  rw [← add_sectorDist_mod c t, ← add_sectorDist_mod c t', h]

theorem sectorDist_injective_head (t : Sector) : Function.Injective (sectorDist · t) := fun c c' h => by
  have hd : sectorDist c t = sectorDist c' t := h
  have hc := add_sectorDist_mod c t
  have hc' := add_sectorDist_mod c' t
  have := c.isLt
  have := c'.isLt
  exact BitVec.eq_of_toNat_eq (by omega)

/-- Values that are distinct at distinct positions and below 4096 are the numbers 0 to 4095 in some order. -/
theorem map_positions_perm_range {f : Sector → Nat} (hinj : Function.Injective f) (hlt : ∀ x, f x < 4096) :
    ((List.range 4096).map (fun x => f (BitVec.ofNat 12 x))).Perm (List.range 4096) := by
  have hnodup : ((List.range 4096).map (fun x => f (BitVec.ofNat 12 x))).Nodup := by
    refine List.nodup_range.map_on fun x hx y hy h => ?_
    have hxy : x % 4096 = y % 4096 := by simpa using congrArg BitVec.toNat (hinj h)
    rwa [Nat.mod_eq_of_lt (List.mem_range.1 hx), Nat.mod_eq_of_lt (List.mem_range.1 hy)] at hxy
  refine (hnodup.subperm fun v hv => ?_).perm_of_length_le (by rw [List.length_map])
  obtain ⟨x, -, rfl⟩ := List.mem_map.1 hv
  exact List.mem_range.2 (hlt _)

/-- Gauss's sum, on lists. -/
theorem sum_range_eq (n : Nat) : (List.range n).sum = n * (n - 1) / 2 := by
  rw [← Finset.sum_range_id, ← List.toFinset_range, List.sum_toFinset _ List.nodup_range, List.map_id']

/-- The sum is `4096 * 2047.5`: the mean distance is 2047.5. -/
theorem sum_over_positions {f : Sector → Nat} (hinj : Function.Injective f) (hlt : ∀ x, f x < 4096) :
    ((List.range 4096).map (fun x => f (BitVec.ofNat 12 x))).sum = 8386560 :=
  (map_positions_perm_range hinj hlt).sum_eq.trans (sum_range_eq 4096)

/-- Settles O15: the laws of two positions, and the two sums by the distances being distinct. -/
theorem rotationalDistanceLaws : Obligations.RotationalDistanceLaws := by
  intro c t
  have hbehind (h : t.toNat < c.toNat) : (sectorDist c t : Int) = (t.toNat : Int) - c.toNat + 4096 := by
    have := sectorDist_of_lt h
    have := c.isLt
    omega
  exact ⟨sectorDist_eq_emod c t, Nat.le_of_lt_succ (sectorDist_lt c t), sectorDist_self c, sectorDist_of_le, hbehind,
    sectorDist_add_one c, sectorDist_sub_one c, sectorDist_add_sectorDist, add_sectorDist_mod c t,
    sum_over_positions (sectorDist_injective_target c) (sectorDist_lt c),
    sum_over_positions (f := (sectorDist · t)) (sectorDist_injective_head t) (sectorDist_lt · t)⟩

end Sys2Proof.Machine
end

