-- ==== Sys2Proof/Proofs/Legality.lean ====
section
/-! SUPPORT. Which words are illegal (R54, R58), and what accepting a word in a ready unit does, by its checks (R65, R106). -/

namespace Sys2Proof

/-! ### Illegal words -/

/-- A word that decodes to a command has a zero reserved field and the command's opcode. -/
theorem fields_of_decode_command {w : CmdWord} {i : Instr} (h : decode w = .command i) :
    cmdRsv w = 0 ∧ cmdOp w = opcode i := by
  unfold decode at h
  split_ifs at h with hrsv hop hop hop hop hop hop hop
  all_goals
    obtain rfl := Decoded.command.inj h
    exact ⟨not_not.1 hrsv, hop⟩

/-- An illegal word has a non-zero reserved field, or an opcode that is no command's (R54, R58). -/
theorem fields_of_decode_illegal {w : CmdWord} {why : IllegalWord} (h : decode w = .illegal why) :
    cmdRsv w ≠ 0 ∨ ∀ i, cmdOp w ≠ opcode i := by
  unfold decode at h
  split_ifs at h with hrsv
  · exact .inl hrsv
  · right
    rintro (_ | _ | _ | _ | _ | _ | _) <;> assumption

theorem decode_illegal_iff (w : CmdWord) :
    (∃ why, decode w = .illegal why) ↔ cmdRsv w ≠ 0 ∨ ∀ i, cmdOp w ≠ opcode i := by
  refine ⟨fun ⟨_, h⟩ => fields_of_decode_illegal h, fun hbad => ?_⟩
  cases hd : decode w with
  | illegal why => exact ⟨why, rfl⟩
  | command i =>
    obtain ⟨hrsv, hop⟩ := fields_of_decode_command hd
    exact (hbad.elim (· hrsv) (· i hop)).elim

/-- The opcodes of the commands are 1…7 (R50). -/
theorem opcode_toNat_mem (i : Instr) : 1 ≤ (opcode i).toNat ∧ (opcode i).toNat ≤ 7 := by
  cases i <;> simp [opcode]

/-- The opcodes of no command are those outside 1…7 (R58). -/
theorem forall_ne_opcode_iff (op : BitVec 8) : (∀ i, op ≠ opcode i) ↔ op.toNat = 0 ∨ 8 ≤ op.toNat := by
  constructor
  · intro h
    have h1 : op ≠ 1 := h .spinUp
    have h2 : op ≠ 2 := h .rotate
    have h3 : op ≠ 3 := h (.locate 0)
    have h4 : op ≠ 4 := h (.read 0)
    have h5 : op ≠ 5 := h (.write 0 0)
    have h6 : op ≠ 6 := h .wipe
    have h7 : op ≠ 7 := h (.pcLoad 0)
    bv_omega
  · rintro hout i rfl
    have := opcode_toNat_mem i
    omega

/-- The illegal words by arithmetic on the word (R54, R58). -/
theorem decode_illegal_iff_toNat (w : CmdWord) :
    (∃ why, decode w = .illegal why) ↔
      (w.toNat / 2 ^ 48 % 256 ≠ 0 ∨ w.toNat / 2 ^ 56 = 0 ∨ 8 ≤ w.toNat / 2 ^ 56) := by
  have hrsv : cmdRsv w ≠ 0 ↔ w.toNat / 2 ^ 48 % 256 ≠ 0 := by
    rw [← cmdRsv_toNat, ne_eq, BitVec.toNat_eq]
    rfl
  rw [decode_illegal_iff, hrsv, forall_ne_opcode_iff, cmdOp_toNat]

end Sys2Proof

namespace Sys2Proof.Machine

/-! ### Accepting a word -/

/-- The first check fails for illegal words only: the checks of a command have codes of their own (R107). -/
theorem check_eq_illegalCommand_iff (s : State) (c : Decoded) :
    check s c = some .illegalCommand ↔ ∃ why, c = .illegal why := by
  cases c with
  | illegal why => exact iff_of_true rfl ⟨why, rfl⟩
  | command i =>
    refine iff_of_false (fun h => ?_) (by simp)
    simp only [check] at h
    split at h
    · cases h
    · simpa using rangeFault_cases i _ h

/-- A ready unit raises the first fault its checks find in the word on the port (R107, R109). -/
theorem step_of_check_fault {s : State} {f : UsageFault} (hr : s.ready = true) (hv : s.cmdValid = true)
    (hc : check s (decode s.cmd) = some f) : step s = .next (raiseUsageFault f (takeCommand s)) := by
  obtain ⟨hf, hp⟩ := (ready_iff s).1 hr
  cases hd : decode s.cmd with
  | illegal why =>
    have hill : f = .illegalCommand := by
      rw [(check_eq_illegalCommand_iff s _).2 ⟨why, hd⟩] at hc
      exact (Option.some.inj hc).symm
    exact hill ▸ step_illegal s why hf hp hv hd
  | command i => exact (step_command s i hf hp hv hd).trans (exec_fault i s f (hd ▸ hc))

/-- With every check passed, the word on the port is a command's and the command takes effect (R65). -/
theorem step_of_check_none {s : State} (hr : s.ready = true) (hv : s.cmdValid = true)
    (hc : check s (decode s.cmd) = none) :
    ∃ i, decode s.cmd = .command i ∧ step s = .next (effectOf i (takeCommand s)) := by
  obtain ⟨hf, hp⟩ := (ready_iff s).1 hr
  cases hd : decode s.cmd with
  | illegal why => simp [hd, check] at hc
  | command i => exact ⟨i, rfl, (step_command s i hf hp hv hd).trans (exec_ok i s (hd ▸ hc))⟩

/-- The effect of a command raises no fault: the checks come first (R65). -/
@[simp] theorem effectOf_fault (i : Instr) (s : State) : (effectOf i s).fault = s.fault := by
  cases i <;> rfl

theorem faultCode_eq_five_iff (f : UsageFault) : faultCode f = 5 ↔ f = .illegalCommand := by
  cases f <;> decide

/-- A fault raised at acceptance does nothing but latch and answer its code (R109). -/
theorem onlyFaults_raiseUsageFault (f : UsageFault) (s : State) :
    OnlyFaults s (raiseUsageFault f (takeCommand s)) (faultCode f) :=
  ⟨rfl, ⟨rfl, rfl, rfl⟩, fun _ => rfl, rfl, rfl, rfl, rfl, rfl, rfl, rfl, rfl, rfl, rfl⟩

/-- Settles O5: the illegal words by their fields, and their acceptance by what the checks answer. -/
theorem illegalWordsRaiseIllegalCommand : Obligations.IllegalWordsRaiseIllegalCommand := by
  refine ⟨decode_illegal_iff_toNat, fun s hr hv => ?_⟩
  rw [← check_eq_illegalCommand_iff s]
  cases hc : check s (decode s.cmd) with
  | some f =>
    refine ⟨_, step_of_check_fault hr hv hc, (faultCode_eq_five_iff f).trans Option.some_inj.symm, fun h5 => ?_⟩
    have honly := onlyFaults_raiseUsageFault f s
    rwa [show faultCode f = 5 from h5] at honly
  | none =>
    obtain ⟨i, _, hstep⟩ := step_of_check_none hr hv hc
    have hne : (effectOf i (takeCommand s)).fault ≠ 5 := by simp [((ready_iff s).1 hr).1]
    exact ⟨_, hstep, iff_of_false hne (by simp), fun h5 => absurd h5 hne⟩

end Sys2Proof.Machine
end

