-- ==== Sys2Proof/Proofs/Access.lean ====
section
/-! SUPPORT. `READ` and `WRITE` (R85 to R90): the head position plays no part in them, and a slot keeps its value until a
`WRITE` of it or a `WIPE`. -/

namespace Sys2Proof.Machine

/-! ### The head position (R37, R86) -/

/-- No check looks at the head, so a command whose effect commutes with moving the head does so from acceptance on. -/
theorem exec_moveHead {i : Instr} {c : Sector}
    (heff : ∀ t, effectOf i { t with cs := c } = { effectOf i t with cs := c }) (s : State) :
    ∃ t, exec i s = .next t ∧ exec i { s with cs := c } = .next { t with cs := c } := by
  have hsame : check { s with cs := c } (.command i) = check s (.command i) := rfl
  cases hc : check s (.command i) with
  | some f => exact ⟨_, exec_fault i s f hc, exec_fault i _ f (hsame.trans hc)⟩
  | none => exact ⟨_, exec_ok i s hc, (exec_ok i _ (hsame.trans hc)).trans (congrArg _ (heff (takeCommand s)))⟩

/-- Settles O24: the effects of `READ` and `WRITE` neither read nor set the head position. -/
theorem accessIgnoresTheHeadPosition : Obligations.AccessIgnoresTheHeadPosition :=
  fun s _ _ _ => ⟨exec_moveHead (fun _ => rfl) s, exec_moveHead (fun _ => rfl) s⟩

/-! ### Arguments and sectors -/

/-- In a Spinning unit only the range check of a command is left (R107). -/
theorem check_of_spinning {s : State} (i : Instr) (hs : s.spinning = true) : check s (.command i) = rangeFault i := by
  simp [check, hs]

/-- `READ` and `WRITE` have the same range check (R103). -/
theorem rangeFault_read_eq_none_iff (a : Arg) : rangeFault (.read a) = none ↔ a.toNat ≤ 4095 := by
  simp [rangeFault, inRange_iff]

theorem rangeFault_write_eq_none_iff (a : Arg) (v : Word) : rangeFault (.write a v) = none ↔ a.toNat ≤ 4095 :=
  rangeFault_read_eq_none_iff a

/-- An accepted `WRITE` has its argument in range (R103). -/
theorem toNat_le_of_accepts_write {s : State} {a : Arg} {v : Word} (h : Accepts s (.write a v)) : a.toNat ≤ 4095 := by
  obtain ⟨_, _, _, hc⟩ := h
  have hs := spinning_of_check s _ rfl hc
  exact (rangeFault_write_eq_none_iff a v).1 ((check_of_spinning _ hs).symm.trans hc)

/-- Arguments in range that name one sector are equal (R55). -/
theorem eq_of_sectorOf_eq {a b : Arg} (ha : a.toNat ≤ 4095) (hb : b.toNat ≤ 4095) (h : sectorOf a = sectorOf b) :
    a = b := by
  have hmod := congrArg BitVec.toNat h
  rw [sectorOf_toNat, sectorOf_toNat] at hmod
  exact BitVec.eq_of_toNat_eq (by omega)

/-! ### Who writes memory (R43) -/

/-- A presented word writes nothing of the unit. -/
@[simp] theorem presentNext_mem (s : State) : (presentNext s).mem = s.mem := by
  obtain ⟨_, heq⟩ | ⟨w, ws, _, heq⟩ := presentNext_cases s <;> rw [heq]

/-- All that a step can do to memory: nothing, the store of an accepted `WRITE`, or the clearing of an accepted `WIPE`. -/
theorem mem_of_step {s t : State} (h : step s = .next t) :
    t.mem = s.mem ∨
      (∃ a v, Accepts s (.write a v) ∧ t.mem = memWrite s.mem (sectorOf a) (normWord v)) ∨
      (Accepts s .wipe ∧ t.mem = memClear) := by
  cases stepForm_of_step h with
  | pause i d hf hp hd => exact .inl rfl
  | finish hfin => exact .inl rfl
  | arrive x hf hp hx => exact .inl rfl
  | search x hf hp hx => exact .inl rfl
  | raise f hr hv hc => exact .inl rfl
  | present hr hv => exact .inl (presentNext_mem s)
  | effect i hacc =>
    cases i with
    | write a v => exact .inr (.inl ⟨a, v, hacc, rfl⟩)
    | wipe => exact .inr (.inr ⟨hacc, rfl⟩)
    | spinUp => exact .inl rfl
    | rotate => exact .inl rfl
    | locate a => exact .inl rfl
    | read a => exact .inl rfl
    | pcLoad p => exact .inl rfl

/-! ### A slot keeps its value (R43, R89) -/

/-- Memory is in canonical form and slot `x` reads `v`. -/
def SlotHolds (x : Sector) (v : Word) (s : State) : Prop := s.mem.wf ∧ memRead s.mem x = v

/-- The step from `s` accepts neither a `WRITE` of sector `a` nor a `WIPE`. -/
def SparesSector (a : Arg) (s : State) : Prop := ¬ Accepts s .wipe ∧ ∀ v, ¬ Accepts s (.write a v)

/-- A slot keeps its value over a step that spares its sector. -/
theorem slotHolds_of_step {s t : State} {a : Arg} {v : Word} (ha : a.toNat ≤ 4095)
    (hold : SlotHolds (sectorOf a) v s) (hspare : SparesSector a s) (h : step s = .next t) :
    SlotHolds (sectorOf a) v t := by
  obtain ⟨hwf, hread⟩ := hold
  obtain ⟨hwipe, hwrite⟩ := hspare
  obtain hmem | ⟨b, v', hacc, hmem⟩ | ⟨hacc, -⟩ := mem_of_step h
  · exact ⟨hmem ▸ hwf, hmem ▸ hread⟩
  · have hne : sectorOf a ≠ sectorOf b := fun heq => by
      obtain rfl := eq_of_sectorOf_eq ha (toNat_le_of_accepts_write hacc) heq
      exact hwrite v' hacc
    exact ⟨hmem ▸ wf_memWrite _ _ _ hwf, by rw [hmem, memRead_memWrite_other _ _ _ _ hwf hne, hread]⟩
  · exact absurd hacc hwipe

/-- What every step from a state with `Q` keeps, a run keeps that passes only through states with `Q`. -/
theorem run_keeps_while (P Q : State → Prop) (hstep : ∀ s t, P s → Q s → step s = .next t → P t) (n : Nat)
    {s t : State} (hs : P s) (hq : ∀ m w, m < n → run m s = .next w → Q w) (h : run n s = .next t) : P t := by
  induction n generalizing s with
  | zero => exact Host.Outcome.next.inj h ▸ hs
  | succ n ih =>
    obtain ⟨u, hu, hrun⟩ := run_succ_cases n s t h
    refine ih (hstep s u hs (hq 0 s n.succ_pos rfl) hu) (fun m w hm hw => ?_) hrun
    exact hq (m + 1) w (Nat.succ_lt_succ hm) ((run_succ_next m s u hu).trans hw)

/-- An accepted `WRITE` leaves its value, normalised, in its slot (R87). -/
theorem slotHolds_of_exec_write {s t : State} {a : Arg} {v : Word} (hwf : s.mem.wf) (hs : s.spinning = true)
    (ha : a.toNat ≤ 4095) (h : exec (.write a v) s = .next t) : SlotHolds (sectorOf a) (normWord v) t := by
  have hc := (check_of_spinning _ hs).trans ((rangeFault_write_eq_none_iff a v).2 ha)
  rw [exec_ok _ s hc] at h
  obtain rfl := Host.Outcome.next.inj h
  exact ⟨wf_memWrite _ _ _ hwf, (memRead_memWrite_same _ _ _ hwf).trans (normWord_normWord v)⟩

/-- An accepted `READ` answers what its slot holds, normalised (R85). -/
theorem exec_read_of_slotHolds {s : State} {a : Arg} {v : Word} (hs : s.spinning = true) (ha : a.toNat ≤ 4095)
    (hold : SlotHolds (sectorOf a) v s) : ∃ t, exec (.read a) s = .next t ∧ Answered t 0 (normWord v) := by
  obtain ⟨_, hread⟩ := hold
  have hc := (check_of_spinning _ hs).trans ((rangeFault_read_eq_none_iff a).2 ha)
  exact ⟨_, exec_ok _ s hc, rfl, rfl, hread ▸ rfl⟩

/-- Settles O43: the `WRITE` fills the slot, the run between keeps it, the `READ` answers it. -/
theorem readReturnsTheLatestWrite : Obligations.ReadReturnsTheLatestWrite := by
  intro s t u a v n hwf hs ha hwrite hrun hspare hu
  have written : SlotHolds (sectorOf a) (normWord v) t := slotHolds_of_exec_write hwf hs ha hwrite
  have kept : SlotHolds (sectorOf a) (normWord v) u :=
    run_keeps_while _ (SparesSector a) (fun _ _ => slotHolds_of_step ha) n written hspare hrun
  have answer := exec_read_of_slotHolds hu ha kept
  rwa [normWord_normWord] at answer

end Sys2Proof.Machine
end

