-- ==== Sys2Proof/Proofs/Wipe.lean ====
section
/-! SUPPORT. `WIPE` (R93, R94): what it leaves of the unit is the baseline of R26, which an Unpowered unit holds already. -/

namespace Sys2Proof.Machine

/-- The unit at the power-off baseline of R26, the fault register at `code`. -/
def baselineUnit (code : FaultCode) : DrumUnit :=
  { mem := memClear, pc := 0, cs := 0, spinning := false, fault := code }

/-- The unit is at the baseline of R26 exactly when it does not spin and its registers and slots are those of R26. -/
theorem unitOf_eq_baselineUnit_iff (s : State) :
    unitOf s = baselineUnit s.fault ↔ s.spinning = false ∧ Baseline s := by
  simp only [unitOf, baselineUnit, Baseline, DrumUnit.mk.injEq]
  tauto

/-- `WIPE` needs no Spinning unit and has no argument, so no check of it fails (R94, R107). -/
theorem check_wipe (s : State) : check s (.command .wipe) = none := rfl

/-- `WIPE` is accepted in every state (R94). -/
theorem exec_wipe (s : State) : exec .wipe s = .next (effectOf .wipe (takeCommand s)) :=
  exec_ok .wipe s (check_wipe s)

/-- `WIPE` brings the unit to the baseline, the fault register kept (R93). -/
theorem unitOf_wipe (s : State) : unitOf (effectOf .wipe (takeCommand s)) = baselineUnit s.fault := rfl

/-- Settles O22: by R26 the Unpowered unit is where `WIPE` brings it. -/
theorem wipeInUnpoweredChangesNothing : Obligations.WipeInUnpoweredChangesNothing := by
  intro s hinv
  refine ⟨_, exec_wipe s, fun hoff => ⟨?unit, rfl, rfl⟩, ?zeroed⟩
  case unit =>
    have hbase : unitOf s = baselineUnit s.fault := (unitOf_eq_baselineUnit_iff s).2 ⟨hoff, hinv.baseline hoff⟩
    exact (unitOf_wipe s).trans hbase.symm
  case zeroed =>
    obtain ⟨hoff, hpc, hcs, hmem⟩ := (unitOf_eq_baselineUnit_iff _).1 (unitOf_wipe s)
    exact ⟨hoff, hpc, hcs, fun x => hmem ▸ memRead_clear x⟩

end Sys2Proof.Machine
end

