-- ==== Sys2Proof/Proofs/ProgramCounter.lean ====
section
/-! SUPPORT. Who sets `program_counter` (R97). -/

namespace Sys2Proof.Machine

/-- A presented word leaves `program_counter` as it is: the port and the script are the caller's. -/
@[simp] theorem presentNext_pc (s : State) : (presentNext s).pc = s.pc := by
  obtain ⟨_, heq⟩ | ⟨w, ws, _, heq⟩ := presentNext_cases s <;> rw [heq]

/-- RESET brings the unit to the baseline and clears the fault register (R131). -/
theorem unitOf_of_applyReset {s t : State} (h : applyReset s = .next t) : unitOf t = baselineUnit 0 := by
  by_cases hp : s.phase = .idle
  · rw [applyReset_idle s hp] at h
    exact Host.Outcome.next.inj h ▸ rfl
  · rw [applyReset_busy s hp] at h
    cases h

/-- A command that passes its checks has passed the range check, the last of them (R107). -/
theorem rangeFault_eq_none_of_check {s : State} {i : Instr} (h : check s (.command i) = none) : rangeFault i = none := by
  simp only [check] at h
  split at h
  · cases h
  · exact h

/-- An accepted `PC_LOAD` has its argument in range (R105). -/
theorem inRange_of_accepts_pcLoad {s : State} {p : Arg} (h : Accepts s (.pcLoad p)) : inRange p = true := by
  obtain ⟨_, _, _, hc⟩ := h
  simpa [rangeFault] using rangeFault_eq_none_of_check hc

/-- The effect of an accepted `PC_LOAD` is its argument in `program_counter`, no bit of it lost (R96). -/
theorem pc_of_accepts_pcLoad {s : State} {p : Arg} (h : Accepts s (.pcLoad p)) :
    (effectOf (.pcLoad p) (takeCommand s)).pc.toNat = p.toNat :=
  sectorOf_toNat_of_inRange p (inRange_of_accepts_pcLoad h)

/-- Settles O40, by the form of the step and, for an accepted command, by the command. -/
theorem programCounterChangesOnlyBySpinUpWipePcLoad : Obligations.ProgramCounterChangesOnlyBySpinUpWipePcLoad := by
  refine ⟨fun s t h => ?_, fun s t h => congrArg DrumUnit.pc (unitOf_of_applyReset h)⟩
  cases stepForm_of_step h with
  | pause i d hf hp hd => exact .inl rfl
  | finish hfin => exact .inr (.inl ⟨hfin, rfl⟩)
  | arrive x hf hp hx => exact .inl rfl
  | search x hf hp hx => exact .inl rfl
  | raise f hr hv hc => exact .inl rfl
  | present hr hv => exact .inl (presentNext_pc s)
  | effect i hacc =>
    cases i with
    | wipe => exact .inr (.inr (.inl ⟨hacc, rfl⟩))
    | pcLoad p => exact .inr (.inr (.inr ⟨p, hacc, pc_of_accepts_pcLoad hacc⟩))
    | spinUp => exact .inl rfl
    | rotate => exact .inl rfl
    | locate a => exact .inl rfl
    | read a => exact .inl rfl
    | write a v => exact .inl rfl

end Sys2Proof.Machine
end

