-- ==== Sys2Proof/Proofs/CheckOrder.lean ====
section
/-! SUPPORT. The checks of R107 read off the bits of the word on the port, and the code that accepting it latches. -/

namespace Sys2Proof.Machine

/-! ### The fields a check reads -/

/-- The argument a command carries, where it uses the argument field (R55, R59). -/
def argOf : Instr → Option Arg
  | .spinUp => none
  | .rotate => none
  | .locate t => some t
  | .read x => some x
  | .write x _ => some x
  | .wipe => none
  | .pcLoad p => some p

/-- A decoded command carries the word's argument field or none (R60). -/
theorem eq_cmdArg_of_decode {w : CmdWord} {i : Instr} {a : Arg} (h : decode w = .command i) (ha : argOf i = some a) :
    a = cmdArg w := by
  unfold decode at h
  split_ifs at h
  all_goals
    obtain rfl := Decoded.command.inj h
    cases ha <;> rfl

/-- The commands that need the Spinning state, by their opcodes (R102). -/
theorem needsSpinning_iff_opcode (i : Instr) :
    needsSpinning i = true ↔ (opcode i).toNat = 2 ∨ (opcode i).toNat = 3 ∨ (opcode i).toNat = 4 ∨
      (opcode i).toNat = 5 ∨ (opcode i).toNat = 7 := by
  cases i <;> simp [needsSpinning, opcode]

/-! ### The code of the first failing check -/

/-- The code the checks answer: that of the failing check, or 0 (R107). -/
def checkCode : Option UsageFault → FaultCode
  | some f => faultCode f
  | none => 0

/-- The Spinning state is checked before the range (R107). -/
theorem checkCode_check_command (s : State) (i : Instr) :
    checkCode (check s (.command i)) =
      if needsSpinning i = true ∧ s.spinning = false then 2 else checkCode (rangeFault i) := by
  by_cases h : needsSpinning i = true ∧ s.spinning = false
  · simp [check, h, checkCode, faultCode]
  · rw [if_neg h, check, if_neg (by simpa using h)]

/-- A range check fails from 4096 on, unsigned (R103, R105). -/
theorem checkCode_ite_inRange (a : Arg) (f : UsageFault) :
    checkCode (if inRange a then none else some f) = if 4095 < a.toNat then faultCode f else 0 := by
  by_cases h : a.toNat ≤ 4095
  · rw [if_pos ((inRange_iff a).2 h), if_neg (by omega), checkCode]
  · rw [if_neg (mt (inRange_iff a).1 h), if_pos (by omega), checkCode]

/-- The range checks by the opcode and the word's argument field (R103, R105, R107). -/
theorem checkCode_rangeFault {w : CmdWord} {i : Instr} (h : decode w = .command i) :
    checkCode (rangeFault i) =
      if ((opcode i).toNat = 3 ∨ (opcode i).toNat = 4 ∨ (opcode i).toNat = 5) ∧ 4095 < (cmdArg w).toNat then 3
      else if (opcode i).toNat = 7 ∧ 4095 < (cmdArg w).toNat then 4
      else 0 := by
  cases i with
  | spinUp | rotate | wipe => rfl
  | locate a | read a | write a v | pcLoad a =>
    simp [rangeFault, checkCode_ite_inRange, eq_cmdArg_of_decode h rfl, opcode, faultCode]

/-- Accepting a word latches the code its checks answer (R65, R107, R109). -/
theorem step_latches_checkCode {s : State} (hr : s.ready = true) (hv : s.cmdValid = true) :
    ∃ t, step s = .next t ∧ t.fault = checkCode (check s (decode s.cmd)) := by
  cases hc : check s (decode s.cmd) with
  | some f => exact ⟨_, step_of_check_fault hr hv hc, raiseUsageFault_fault f _⟩
  | none =>
    obtain ⟨i, _, hstep⟩ := step_of_check_none hr hv hc
    exact ⟨_, hstep, (effectOf_fault i _).trans ((ready_iff s).1 hr).1⟩

/-- Settles O34: the checks of the decoded word, one after the other, by the word's fields. -/
theorem checksAreMadeInOrder : Obligations.ChecksAreMadeInOrder := by
  rintro s op rsv arg hr hv hop hrsv rfl
  obtain ⟨t, hstep, hfault⟩ := step_latches_checkCode hr hv
  refine ⟨t, hstep, hfault.trans ?_⟩
  have hlegality := decode_illegal_iff_toNat s.cmd
  rw [← hop, ← hrsv] at hlegality
  cases hd : decode s.cmd with
  | illegal why =>
    have hillegal := hlegality.1 ⟨why, hd⟩
    rw [if_pos (by omega)]
    rfl
  | command i =>
    have hlegal := mt hlegality.2 (by simp [hd])
    have hopcode : op = (opcode i).toNat := by
      rw [hop, ← cmdOp_toNat, (fields_of_decode_command hd).2]
    rw [if_neg (by omega), checkCode_check_command, checkCode_rangeFault hd, ← cmdArg_toNat, hopcode]
    simp only [needsSpinning_iff_opcode]

end Sys2Proof.Machine
end

section
/-! SUPPORT. The state after RESET (R131). -/

namespace Sys2Proof.Machine

/-- A ready unit that does not spin is Unpowered (R18, R20). -/
theorem lifecycle_of_ready {s : State} (hr : s.ready = true) (hs : s.spinning = false) : lifecycle s = .unpowered := by
  simp [lifecycle, ((ready_iff s).1 hr).1, hs]

/-- RESET leaves the unit ready (R131). -/
@[simp] theorem resetWith_ready (p : Config.Params) : (State.resetWith p).ready = true :=
  (ready_iff _).2 ⟨rfl, rfl⟩

/-- Settles O9: the memory is the cleared one, the registers stand as written, and the outputs follow from readiness. -/
theorem resetLeavesTheResetValues : Obligations.ResetLeavesTheResetValues := by
  intro p
  have hout : outReady (State.resetWith p) = 1 := congrArg BitVec.ofBool (resetWith_ready p)
  exact ⟨memRead_clear, rfl, rfl, rfl, rfl, rfl, lifecycle_of_ready (resetWith_ready p) rfl, hout, rfl⟩

end Sys2Proof.Machine
end

section
/-! SUPPORT. The run of one command to its end, its events and the delay requests among them (R71, R81, R144). -/

namespace Sys2Proof.Machine

/-! ### Runs to readiness -/

/-- `n` steps from `s` the unit is ready, and the events of those steps are `es`. -/
def ReadyAfter (n : Nat) (es : List Event) (s : State) : Prop :=
  ∃ t, run n s = .next t ∧ t.ready = true ∧ t.trace = s.trace ++ es

/-- A run of one step, which ends the command. -/
theorem readyAfter_one {s t : State} {es : List Event} (h : step s = .next t) (hr : t.ready = true)
    (htr : t.trace = s.trace ++ es) : ReadyAfter 1 es s :=
  ⟨t, (run_one s).trans h, hr, htr⟩

/-- A first step and its events put in front of a run. -/
theorem readyAfter_succ {s u : State} {n : Nat} {es es' : List Event} (h : step s = .next u)
    (htr : u.trace = s.trace ++ es) (hu : ReadyAfter n es' u) : ReadyAfter (n + 1) (es ++ es') s := by
  obtain ⟨t, hrun, hr, ht⟩ := hu
  exact ⟨t, (run_succ_next n s u h).trans hrun, hr, by rw [ht, htr, List.append_assoc]⟩

/-- A `SPIN_UP` with the pauses `ds` still to request takes one step for each, and a last one (R71). -/
theorem readyAfter_spinPause {ds : List Nat} {s : State} {i : Nat} (hf : s.fault = 0) (hp : s.phase = .spinPause i)
    (hds : s.params.spinupPausesUs.drop i = ds) : ReadyAfter (ds.length + 1) (ds.map .delay) s := by
  induction ds generalizing s i with
  | nil =>
    have hnone : s.params.spinupPausesUs[i]? = none := List.getElem?_eq_none (List.drop_eq_nil_iff.1 hds)
    have hstep : step s = .next (finishSpinUp s) := by rw [step_spinPause s i hf hp, spinUpStep, hnone]
    exact readyAfter_one hstep ((ready_iff _).2 ⟨hf, rfl⟩) (by simp)
  | cons d ds ih =>
    have hd : s.params.spinupPausesUs[i]? = some d := by rw [← List.head?_drop, hds, List.head?_cons]
    have hrest : s.params.spinupPausesUs.drop (i + 1) = ds := by rw [← List.tail_drop, hds, List.tail_cons]
    have hstep : step s = .next (emitEvent (.delay d) { s with phase := .spinPause (i + 1) }) := by
      rw [step_spinPause s i hf hp, spinUpStep, hd]
    exact readyAfter_succ hstep (emitEvent_trace _ _) (ih hf rfl hrest)

/-- A search `k` sectors from its target takes `k` rotation steps and a completing one (R81). -/
theorem readyAfter_locating {k : Nat} {s : State} {x : Sector} (hf : s.fault = 0) (hp : s.phase = .locating x)
    (hk : sectorDist s.cs x = k) : ReadyAfter (k + 1) (rotationEvents s.params.tSectorUs k s.cs) s := by
  induction k generalizing s with
  | zero =>
    have hx : s.cs = x := not_ne_iff.1 fun h => by simp [sectorDist_nextSector _ _ h] at hk
    have hstep : step s = .next (respond 0 0 { s with phase := .idle }) := by
      rw [step_locating s x hf hp, locateStep, if_pos hx]
    exact readyAfter_one hstep ((ready_iff _).2 ⟨hf, rfl⟩) (List.append_nil _).symm
  | succ k ih =>
    have hx : s.cs ≠ x := fun h => by simp [h] at hk
    have hstep : step s = .next (rotationStep s) := by rw [step_locating s x hf hp, locateStep, if_neg hx]
    have hk' : sectorDist (rotationStep s).cs x = k := Nat.succ.inj ((sectorDist_nextSector _ _ hx).symm.trans hk)
    exact readyAfter_succ hstep (rotationStep_moves s).2 (ih hf hp hk')

/-! ### A command from its acceptance to its end -/

/-- The events of a command that passes its checks, from acceptance in `s` to completion (R71, R75, R81). -/
def eventsOf (i : Instr) (s : State) : List Event :=
  match i with
  | .spinUp => s.params.spinupPausesUs.map .delay
  | .rotate => rotationEvents s.params.tSectorUs 1 s.cs
  | .locate a => rotationEvents s.params.tSectorUs (sectorDist s.cs (sectorOf a)) s.cs
  | .read _ => []
  | .write _ _ => []
  | .wipe => []
  | .pcLoad _ => []

/-- A command that fails a check takes its acceptance and no more (R109). -/
theorem stepsOf_of_check_fault {s : State} {c : Decoded} {f : UsageFault} (h : check s c = some f) :
    stepsOf s c = 1 := by
  simp [stepsOf, h]

/-- A command that passes its checks takes the steps the spec counts, and has its events (R73a, R81, R144). -/
theorem readyAfter_stepsOf {s : State} {i : Instr} (h : Accepts s i) :
    ReadyAfter (stepsOf s (.command i)) (eventsOf i s) s := by
  obtain ⟨hr, hv, hd, hc⟩ := h
  obtain ⟨hf, hp⟩ := (ready_iff s).1 hr
  have hstep : step s = .next (effectOf i (takeCommand s)) := (step_command s i hf hp hv hd).trans (exec_ok i s hc)
  have hready {t : State} (hf' : t.fault = s.fault) (hp' : t.phase = s.phase) : t.ready = true :=
    (ready_iff t).2 ⟨hf'.trans hf, hp'.trans hp⟩
  cases i with
  | spinUp =>
    simp only [stepsOf, hc, Nat.add_comm 1]
    exact readyAfter_succ hstep (List.append_nil _).symm (readyAfter_spinPause hf rfl rfl)
  | locate a =>
    simp only [stepsOf, hc, Nat.add_comm 1]
    exact readyAfter_succ hstep (List.append_nil _).symm (readyAfter_locating hf rfl rfl)
  | rotate =>
    simp only [stepsOf, hc]
    exact readyAfter_one hstep (hready rfl rfl) (rotationStep_moves (takeCommand s)).2
  | read _ | write _ _ | wipe | pcLoad _ =>
    simp only [stepsOf, hc]
    exact readyAfter_one hstep (hready rfl rfl) (List.append_nil _).symm

/-! ### The delay requests among the events (R144) -/

@[simp] theorem delays_nil : delays [] = 0 := rfl

@[simp] theorem requested_nil : requested [] = 0 := rfl

@[simp] theorem delays_map_delay (ds : List Nat) : delays (ds.map .delay) = ds.length := by
  simp [delays, List.countP_map, Function.comp_def, eventIsRotate]

@[simp] theorem requested_map_delay (ds : List Nat) : requested (ds.map .delay) = ds.sum := by
  simp [requested, Function.comp_def, eventDelay]

/-- Settles O31: a failing check ends the command at its acceptance; else the delay requests are those of its events. -/
theorem requestedDelayOfEachCommand : Obligations.RequestedDelayOfEachCommand := by
  intro s hr hv
  cases hc : check s (decode s.cmd) with
  | some f =>
    have hrun := (congrArg (run · s) (stepsOf_of_check_fault hc)).trans (run_one s)
    have hp := ((ready_iff s).1 hr).2
    refine ⟨raiseUsageFault f (takeCommand s), 0, 0, hrun.trans (step_of_check_fault hr hv hc), ?_, rfl, rfl,
      fun _ _ => ⟨rfl, rfl, rfl⟩, nofun⟩
    simp [State.ready, hp]
  | none =>
    obtain ⟨i, hd, -⟩ := step_of_check_none hr hv hc
    obtain ⟨t, hrun, htr, htrace⟩ := readyAfter_stepsOf ⟨hr, hv, hd, hd ▸ hc⟩
    refine ⟨t, delays (eventsOf i s), requested (eventsOf i s), hd ▸ hrun, ?_, ?_, ?_, nofun, fun _ j hj => ?_⟩
    · simp [htr, ((ready_iff t).1 htr).1]
    · rw [htrace, delays_append]
    · rw [htrace, requested_append]
    · obtain rfl := Decoded.command.inj (hd.symm.trans hj)
      cases i <;> simp [eventsOf]

end Sys2Proof.Machine
end

section
/-! SUPPORT. Decoding and encoding (R52 to R61): a command word is its four fields, and a command is read from the fields it
uses and from no others. -/

namespace Sys2Proof

/-! ### The fields of a word -/

/-- Two command words are equal exactly when their four fields are (R52). -/
theorem cmdWord_ext_iff {v w : CmdWord} :
    v = w ↔ cmdOp v = cmdOp w ∧ cmdRsv v = cmdRsv w ∧ cmdArg v = cmdArg w ∧ cmdData v = cmdData w := by
  refine ⟨fun h => h ▸ ⟨rfl, rfl, rfl, rfl⟩, fun ⟨hop, hrsv, harg, hdata⟩ => ?_⟩
  have hop' := congrArg BitVec.toNat hop
  have hrsv' := congrArg BitVec.toNat hrsv
  have harg' := congrArg BitVec.toNat harg
  have hdata' := congrArg BitVec.toNat hdata
  simp only [cmdOp_toNat, cmdRsv_toNat, cmdArg_toNat] at hop' hrsv' harg'
  simp only [cmdData, BitVec.extractLsb'_toNat, Nat.shiftRight_zero] at hdata'
  apply BitVec.eq_of_toNat_eq
  omega

@[simp] theorem cmdOp_and (v w : CmdWord) : cmdOp (v &&& w) = cmdOp v &&& cmdOp w := BitVec.extractLsb'_and
@[simp] theorem cmdRsv_and (v w : CmdWord) : cmdRsv (v &&& w) = cmdRsv v &&& cmdRsv w := BitVec.extractLsb'_and
@[simp] theorem cmdArg_and (v w : CmdWord) : cmdArg (v &&& w) = cmdArg v &&& cmdArg w := BitVec.extractLsb'_and
@[simp] theorem cmdData_and (v w : CmdWord) : cmdData (v &&& w) = cmdData v &&& cmdData w := BitVec.extractLsb'_and

/-! ### The command a word's fields give -/

/-- The command of the same row of the opcode table as `i`, its operands taken from the word `w` (R59, R60). -/
def withFields (i : Instr) (w : CmdWord) : Instr :=
  match i with
  | .spinUp => .spinUp
  | .rotate => .rotate
  | .locate _ => .locate (cmdArg w)
  | .read _ => .read (cmdArg w)
  | .write _ _ => .write (cmdArg w) (cmdData w)
  | .wipe => .wipe
  | .pcLoad _ => .pcLoad (cmdArg w)

/-- A word with a zero reserved field and a command's opcode decodes to that command, operands from the word (R60). -/
theorem decode_eq_withFields {w : CmdWord} {i : Instr} (hrsv : cmdRsv w = 0) (hop : cmdOp w = opcode i) :
    decode w = .command (withFields i w) := by
  cases i <;> simp [decode, hrsv, hop, opcode, withFields]

/-- A decoded command has its operands from the word (R60). -/
theorem withFields_of_decode {w : CmdWord} {i : Instr} (h : decode w = .command i) : withFields i w = i := by
  obtain ⟨hrsv, hop⟩ := fields_of_decode_command h
  exact Decoded.command.inj ((decode_eq_withFields hrsv hop).symm.trans h)

/-- The decoder by fields: the reserved field, the opcode, and the operands the command uses (R59, R60). -/
theorem decode_eq_command_iff (w : CmdWord) (i : Instr) :
    decode w = .command i ↔ cmdRsv w = 0 ∧ cmdOp w = opcode i ∧ withFields i w = i := by
  refine ⟨fun h => ?_, fun ⟨hrsv, hop, hfields⟩ => (decode_eq_withFields hrsv hop).trans (congrArg _ hfields)⟩
  obtain ⟨hrsv, hop⟩ := fields_of_decode_command h
  exact ⟨hrsv, hop, withFields_of_decode h⟩

/-! ### The canonical word -/

@[simp] theorem cmdRsv_encode (i : Instr) : cmdRsv (encode i) = 0 := by
  cases i <;> exact cmdRsv_cmdWord _ _ _

@[simp] theorem cmdOp_encode (i : Instr) : cmdOp (encode i) = opcode i := by
  cases i <;> exact cmdOp_cmdWord _ _ _

/-- The canonical word holds the operands of its command. -/
@[simp] theorem withFields_encode (i : Instr) : withFields i (encode i) = i := by
  cases i <;> simp [withFields, encode]

/-- Settles O2, by the fields of the canonical word. -/
theorem encodedCommandDecodesToItself : Obligations.EncodedCommandDecodesToItself := fun i =>
  (decode_eq_command_iff (encode i) i).2 ⟨cmdRsv_encode i, cmdOp_encode i, withFields_encode i⟩

/-! ### The masks, field by field (R59) -/

theorem and_eq_cmdWord_iff (w m : CmdWord) (op : BitVec 8) (a : Arg) (d : Word) :
    w &&& m = cmdWord op a d ↔ cmdOp w &&& cmdOp m = op ∧ cmdRsv w &&& cmdRsv m = 0 ∧ cmdArg w &&& cmdArg m = a ∧
      cmdData w &&& cmdData m = d := by
  rw [cmdWord_ext_iff]
  simp

/-- The mask of a command without operands. -/
theorem and_headerMask_iff (w : CmdWord) (op : BitVec 8) :
    w &&& 0xFFFF000000000000 = cmdWord op 0 0 ↔ cmdRsv w = 0 ∧ cmdOp w = op := by
  obtain ⟨hop, hrsv, harg, hdata⟩ : cmdOp 0xFFFF000000000000 = BitVec.allOnes 8 ∧
    cmdRsv 0xFFFF000000000000 = BitVec.allOnes 8 ∧ cmdArg 0xFFFF000000000000 = 0 ∧ cmdData 0xFFFF000000000000 = 0 := by decide
  rw [and_eq_cmdWord_iff, hop, hrsv, harg, hdata, BitVec.and_allOnes, BitVec.and_allOnes]
  simp [and_comm]

/-- The mask of a command with an argument. -/
theorem and_argMask_iff (w : CmdWord) (op : BitVec 8) (a : Arg) :
    w &&& 0xFFFFFFFF00000000 = cmdWord op a 0 ↔ cmdRsv w = 0 ∧ cmdOp w = op ∧ cmdArg w = a := by
  obtain ⟨hop, hrsv, harg, hdata⟩ : cmdOp 0xFFFFFFFF00000000 = BitVec.allOnes 8 ∧
    cmdRsv 0xFFFFFFFF00000000 = BitVec.allOnes 8 ∧ cmdArg 0xFFFFFFFF00000000 = BitVec.allOnes 16 ∧
    cmdData 0xFFFFFFFF00000000 = 0 := by decide
  rw [and_eq_cmdWord_iff, hop, hrsv, harg, hdata, BitVec.and_allOnes, BitVec.and_allOnes, BitVec.and_allOnes]
  simp [and_left_comm]

/-- The mask of a command with an argument and a value covers the whole word. -/
theorem and_fullMask_iff (w : CmdWord) (op : BitVec 8) (a : Arg) (d : Word) :
    w &&& 0xFFFFFFFFFFFFFFFF = cmdWord op a d ↔ cmdRsv w = 0 ∧ cmdOp w = op ∧ cmdArg w = a ∧ cmdData w = d := by
  rw [show w &&& 0xFFFFFFFFFFFFFFFF = w from BitVec.and_allOnes, cmdWord_ext_iff]
  simp [and_left_comm]

/-- A word under a command's mask is the command's canonical word exactly when the fields the command uses are the
command's. -/
theorem and_usedMask_eq_encode_iff (w : CmdWord) (i : Instr) :
    w &&& usedMask i = encode i ↔ cmdRsv w = 0 ∧ cmdOp w = opcode i ∧ withFields i w = i := by
  cases i with
  | spinUp | rotate | wipe => exact (and_headerMask_iff w _).trans (by simp [withFields])
  | locate a | read a | pcLoad a => exact (and_argMask_iff w _ a).trans (by simp [withFields])
  | write a v => exact (and_fullMask_iff w _ a v).trans (by simp [withFields])

/-- Settles O3: both sides say the same of the word's fields. -/
theorem wordsDecodeByTheirUsedFieldsOnly : Obligations.WordsDecodeByTheirUsedFieldsOnly := fun w i =>
  (decode_eq_command_iff w i).trans (and_usedMask_eq_encode_iff w i).symm

/-- Settles O4: each canonical word is made by `cmdWord`, whose number is known. -/
theorem canonicalWordsByArithmetic : Obligations.CanonicalWordsByArithmetic := by
  unfold Obligations.CanonicalWordsByArithmetic
  simp [encode, cmdWord_toNat, opcode]

/-- Settles O1: ten closed words, decoded. -/
theorem wordsWrittenFromTheFieldTableDecode : Obligations.WordsWrittenFromTheFieldTableDecode := by
  unfold Obligations.WordsWrittenFromTheFieldTableDecode
  decide

end Sys2Proof
end

section
/-! SUPPORT. The acceptance of each command (R65): the faults its checks raise, and the effect once they pass. -/

namespace Sys2Proof.Machine

/-! ### Checks that fail and checks that pass (R107) -/

/-- A command that fails a check does nothing but raise its fault (R109). -/
theorem exec_onlyFaults {i : Instr} {s : State} {f : UsageFault} (h : check s (.command i) = some f) :
    ∃ t, exec i s = .next t ∧ OnlyFaults s t (faultCode f) :=
  ⟨_, exec_fault i s f h, onlyFaults_raiseUsageFault f s⟩

/-- A command that needs the Spinning state raises code 2 in a unit that does not spin (R102). -/
theorem exec_notSpinning {i : Instr} {s : State} (hn : needsSpinning i = true) (hs : s.spinning = false) :
    ∃ t, exec i s = .next t ∧ OnlyFaults s t 2 :=
  exec_onlyFaults (f := .notSpinning) (by simp [check, hn, hs])

/-- In a Spinning unit a command out of range raises its range code (R103, R105). -/
theorem exec_outOfRange {i : Instr} {s : State} {f : UsageFault} (hs : s.spinning = true) (hr : rangeFault i = some f) :
    ∃ t, exec i s = .next t ∧ OnlyFaults s t (faultCode f) :=
  exec_onlyFaults ((check_of_spinning i hs).trans hr)

/-- In a Spinning unit a command in range takes effect (R65). -/
theorem exec_inRange {i : Instr} {s : State} (hs : s.spinning = true) (hr : rangeFault i = none) :
    exec i s = .next (effectOf i (takeCommand s)) :=
  exec_ok i s ((check_of_spinning i hs).trans hr)

/-- An argument in range names its sector, no bit of it lost (R55). -/
theorem sectorOf_toNat_of_le {a : Arg} (h : a.toNat ≤ 4095) : (sectorOf a).toNat = a.toNat :=
  sectorOf_toNat_of_inRange a ((inRange_iff a).2 h)

theorem ite_inRange_of_le {a : Arg} (h : a.toNat ≤ 4095) (f : UsageFault) :
    (if inRange a then none else some f) = none := if_pos ((inRange_iff a).2 h)

theorem ite_inRange_of_lt {a : Arg} (h : 4095 < a.toNat) (f : UsageFault) :
    (if inRange a then none else some f) = some f := if_neg (mt (inRange_iff a).1 (by omega))

/-- A command is well-formed exactly when its range check passes (R55, R139). -/
theorem wellFormed_iff_rangeFault (i : Instr) : i.wellFormed = true ↔ rangeFault i = none := by
  have hposition (a : Arg) : Arg.isPosition a = inRange a := by
    rw [Bool.eq_iff_iff, inRange_iff, Arg.isPosition, decide_eq_true_iff, Nat.lt_succ_iff]
  cases i <;> simp [Instr.wellFormed, rangeFault, hposition]

/-- No usage fault has the code 0 (R101). -/
theorem faultCode_ne_zero (f : UsageFault) : faultCode f ≠ 0 := by
  cases f <;> decide

/-- Settles O35: in a Spinning unit the range check alone decides. -/
theorem wellFormedCommandsRaiseNoFault : Obligations.WellFormedCommandsRaiseNoFault := by
  intro s i hf hs
  rw [wellFormed_iff_rangeFault]
  cases hr : rangeFault i with
  | none => exact ⟨_, exec_inRange hs hr, iff_of_true ((effectOf_fault i _).trans hf) rfl⟩
  | some f =>
    obtain ⟨t, hexec, hcode, -⟩ := exec_outOfRange hs hr
    exact ⟨t, hexec, iff_of_false (hcode ▸ faultCode_ne_zero f) nofun⟩

/-! ### Each command (R70 to R97) -/

/-- `SPIN_UP` needs no Spinning unit and has no argument, so no check of it fails (R72, R107). -/
theorem check_spinUp (s : State) : check s (.command .spinUp) = none := rfl

/-- `SPIN_UP` is accepted in every state, and its pauses begin (R70, R72). -/
theorem exec_spinUp (s : State) : exec .spinUp s = .next { takeCommand s with phase := .spinPause 0 } :=
  exec_ok .spinUp s (check_spinUp s)

/-- Settles O16: the acceptance touches the port and the phase. -/
theorem spinUpIsAlwaysAccepted : Obligations.SpinUpIsAlwaysAccepted := fun s =>
  ⟨_, exec_spinUp s, rfl, rfl, rfl, rfl, rfl, rfl, rfl, rfl, rfl, fun _ => rfl, rfl, rfl, rfl, rfl, rfl⟩

/-- Settles O17: the effect is one rotation step. -/
theorem rotateAdvancesTheHeadByOne : Obligations.RotateAdvancesTheHeadByOne := by
  refine fun s => ⟨fun hs => ?_, exec_notSpinning rfl⟩
  obtain ⟨hhead, htrace⟩ := rotationStep_moves (takeCommand s)
  exact ⟨_, exec_inRange hs rfl, hhead, htrace, ⟨rfl, rfl, rfl⟩, fun _ => rfl, rfl, hs, rfl, rfl, rfl, rfl, rfl, rfl, rfl⟩

/-- Settles O18: in range, the effect is the phase alone. -/
theorem locateBeginsTheSearch : Obligations.LocateBeginsTheSearch := by
  refine fun s a => ⟨fun hs ha => ?_, fun hs ha =>
    exec_outOfRange (i := .locate a) (f := .sectorRange) hs (ite_inRange_of_lt ha _), exec_notSpinning rfl⟩
  have htarget : (sectorOf a).toNat = a.toNat := sectorOf_toNat_of_le ha
  exact ⟨_, sectorOf a, exec_inRange hs (ite_inRange_of_le ha _), rfl, htarget, rfl, rfl, rfl, rfl, rfl, rfl, hs, rfl,
    fun _ => rfl, rfl, rfl, rfl, rfl, rfl⟩

/-- A slot whose four bytes are zero reads zero. -/
theorem memRead_eq_zero {m : Memory} {x : Sector} (h : ∀ b, slotAddr x ≤ b → b < slotAddr x + 4 → m.readByte b = 0) :
    memRead m x = 0 := by
  rw [memRead, h _ (by omega) (by omega), h _ (by omega) (by omega), h _ (by omega) (by omega), h _ (by omega) (by omega)]
  decide

/-- Settles O19: in range, the effect is a response with the slot, normalised. -/
theorem readAnswersTheSlotAndChangesNothing : Obligations.ReadAnswersTheSlotAndChangesNothing := by
  refine fun s a => ⟨fun hs ha => ?_, fun hs ha =>
    exec_outOfRange (i := .read a) (f := .sectorRange) hs (ite_inRange_of_lt ha _), exec_notSpinning rfl⟩
  have hdata : rspData (effectOf (.read a) (takeCommand s)).rsp = normWord (memRead s.mem (sectorOf a)) :=
    rspData_rspWord 0 _
  refine ⟨_, exec_inRange hs (ite_inRange_of_le ha _), ⟨rfl, rfl, rfl⟩, ?_, fun hzero => ?_, fun _ => rfl, rfl, rfl, hs,
    rfl, rfl, rfl, rfl, rfl, rfl, rfl, rfl⟩
  · rw [hdata, normWord_spacer]
  · rw [hdata, memRead_eq_zero hzero]
    rfl

/-- Settles O20: in range, the effect is the store of the normalised value, and memory's laws say what it leaves. -/
theorem writeStoresTheNormalizedWord : Obligations.WriteStoresTheNormalizedWord := by
  refine fun s a v => ⟨fun hwf hs ha => ?_, fun hs ha =>
    exec_outOfRange (i := .write a v) (f := .sectorRange) hs (ite_inRange_of_lt ha _), exec_notSpinning rfl⟩
  have hslot := (memRead_memWrite_same s.mem (sectorOf a) (normWord v) hwf).trans (normWord_normWord v)
  exact ⟨_, exec_inRange hs (ite_inRange_of_le ha _), hslot, fun y => memRead_memWrite_other _ _ y _ hwf,
    fun b => readByte_memWrite_other _ _ _ b hwf, ⟨rfl, rfl, rfl⟩, rfl, rfl, hs, rfl, rfl, rfl, rfl, rfl, rfl, rfl, rfl⟩

/-- Settles O21: `WIPE` brings the unit to the baseline, which is the unit of RESET once no fault is latched. -/
theorem wipeZeroesEverything : Obligations.WipeZeroesEverything := by
  intro s
  refine ⟨_, exec_wipe s, fun hr => ?_, fun _ => rfl, memRead_clear, rfl, rfl, rfl, rfl, rfl, rfl, ⟨rfl, rfl, rfl⟩,
    ⟨rfl, rfl, rfl, rfl, rfl⟩, fun hf => ?_⟩
  · obtain ⟨hf, hp⟩ := (ready_iff s).1 hr
    exact lifecycle_of_ready ((ready_iff _).2 ⟨hf, hp⟩) rfl
  · rw [unitOf_wipe, hf]
    rfl

/-- Settles O23: in range, the effect is the argument in `program_counter`, no bit of it lost. -/
theorem pcLoadSetsTheProgramCounter : Obligations.PcLoadSetsTheProgramCounter := by
  refine fun s p => ⟨fun hs hp => ?_, fun hs hp =>
    exec_outOfRange (i := .pcLoad p) (f := .pcRange) hs (ite_inRange_of_lt hp _), exec_notSpinning rfl⟩
  have hpc : (sectorOf p).toNat = p.toNat := sectorOf_toNat_of_le hp
  exact ⟨_, exec_inRange hs (ite_inRange_of_le hp _), hpc, ⟨rfl, rfl, rfl⟩, fun _ => rfl, rfl, hs, rfl, rfl, rfl, rfl, rfl,
    rfl, rfl, rfl⟩

end Sys2Proof.Machine
end

section
/-! SUPPORT. What single steps do (R19, R20, R62, R108): the forms of a step are exactly the steps, a Faulted unit has none,
a busy unit holds its port. -/

namespace Sys2Proof.Machine

/-! ### Every form is a step -/

/-- A command whose acceptance passes its checks takes effect in one step (R65). -/
theorem step_of_accepts {s : State} {i : Instr} (h : Accepts s i) : step s = .next (effectOf i (takeCommand s)) := by
  obtain ⟨hr, hv, hd, hc⟩ := h
  obtain ⟨hf, hp⟩ := (ready_iff s).1 hr
  exact (step_command s i hf hp hv hd).trans (exec_ok i s hc)

/-- Each form of `StepForm` is the step the machine takes. -/
theorem step_of_stepForm {s t : State} (h : StepForm s t) : step s = .next t := by
  cases h with
  | pause i d hf hp hd => rw [step_spinPause s i hf hp, spinUpStep, hd]
  | finish hfin =>
    obtain ⟨hf, i, hp, hi⟩ := hfin
    rw [step_spinPause s i hf hp, spinUpStep, List.getElem?_eq_none hi]
  | arrive x hf hp hx => rw [step_locating s x hf hp, locateStep, if_pos hx]
  | search x hf hp hx => rw [step_locating s x hf hp, locateStep, if_neg hx]
  | raise f hr hv hc => exact step_of_check_fault hr hv hc
  | effect i hacc => exact step_of_accepts hacc
  | present hr hv => exact step_present s ((ready_iff s).1 hr).1 ((ready_iff s).1 hr).2 hv

/-! ### Who steps at all (R20, R109) -/

/-- A Faulted unit stops with its code (V7). -/
theorem step_of_fault {s : State} (h : s.fault ≠ 0) : step s = .fault (.halted s.fault) := if_pos h

theorem step_ne_next_of_fault {s : State} (h : s.fault ≠ 0) (t : State) : step s ≠ .next t := by
  rw [step_of_fault h]
  nofun

/-- A ready unit with a word on its port accepts it, with its fault or its effect (R65). -/
theorem step_of_word {s : State} (hr : s.ready = true) (hv : s.cmdValid = true) : ∃ t, step s = .next t := by
  cases hc : check s (decode s.cmd) with
  | some f => exact ⟨_, step_of_check_fault hr hv hc⟩
  | none =>
    obtain ⟨i, _, hstep⟩ := step_of_check_none hr hv hc
    exact ⟨_, hstep⟩

/-- Settles O37: by the phase, and in a ready unit by the port. -/
theorem onlyAFaultedUnitStops : Obligations.OnlyAFaultedUnitStops := by
  refine fun s => ⟨fun hf => ?_, step_of_fault⟩
  cases hp : s.phase with
  | spinPause i => exact ⟨_, step_spinPause s i hf hp⟩
  | locating x => exact ⟨_, step_locating s x hf hp⟩
  | idle =>
    cases hv : s.cmdValid with
    | true => exact step_of_word ((ready_iff s).2 ⟨hf, hp⟩) hv
    | false => exact ⟨_, step_present s hf hp hv⟩

/-- Settles O6: acceptance dispatches to the decoded command. -/
theorem stepRunsTheDecodedCommand : Obligations.StepRunsTheDecodedCommand := by
  constructor
  · intro s i hr hv hd
    obtain ⟨hf, hp⟩ := (ready_iff s).1 hr
    exact step_command s i hf hp hv hd
  · intro s n w i h
    refine step_command (s.withFetchWord n w) i rfl rfl rfl ?_
    unfold decodeTableWord at h
    split at h
    · next j hd => exact hd.trans (congrArg Decoded.command (Option.some.inj h))
    · cases h

/-- Settles O7: the caller's step, by what is left of the script. -/
theorem readyUnitTakesTheCallersNextWord : Obligations.ReadyUnitTakesTheCallersNextWord := by
  intro s hr hv
  obtain ⟨hf, hp⟩ := (ready_iff s).1 hr
  rw [step_present s hf hp hv, presentNext]
  exact ⟨fun h => by rw [h], fun w ws h => by rw [h]⟩

/-- Settles O8: each internal step by what it does; the pauses and the rotations leave the ports, the last steps respond. -/
theorem busyUnitHoldsThePort : Obligations.BusyUnitHoldsThePort := by
  intro s hf hbusy
  cases hp : s.phase with
  | idle => exact absurd hp hbusy
  | spinPause i =>
    refine ⟨_, step_spinPause s i hf hp, ?_⟩
    obtain ⟨d, -, heq⟩ | ⟨-, heq⟩ := spinUpStep_cases i s <;> rw [heq]
    · exact ⟨rfl, rfl, rfl, hf, fun _ => ⟨rfl, rfl⟩, nofun⟩
    · exact ⟨rfl, rfl, rfl, hf, fun h => absurd rfl h, fun _ => ⟨rfl, rfl⟩⟩
  | locating x =>
    refine ⟨_, step_locating s x hf hp, ?_⟩
    obtain ⟨-, heq⟩ | ⟨-, heq⟩ := locateStep_cases x s <;> rw [heq]
    · exact ⟨rfl, rfl, rfl, hf, fun h => absurd rfl h, fun _ => ⟨rfl, rfl⟩⟩
    · exact ⟨rfl, rfl, rfl, hf, fun _ => ⟨rfl, rfl⟩, fun h => absurd h hbusy⟩

/-! ### Faults (R108, R109) -/

/-- A presented word raises no fault. -/
@[simp] theorem presentNext_fault (s : State) : (presentNext s).fault = s.fault := by
  obtain ⟨_, heq⟩ | ⟨w, ws, _, heq⟩ := presentNext_cases s <;> rw [heq]

/-- A step that ends in a fault is the acceptance of a word that fails a check (R108). -/
theorem raises_of_step {s t : State} (h : step s = .next t) (ht : t.fault ≠ 0) :
    ∃ f, s.ready = true ∧ s.cmdValid = true ∧ check s (decode s.cmd) = some f ∧
      t = raiseUsageFault f (takeCommand s) := by
  cases stepForm_of_step h with
  | raise f hr hv hc => exact ⟨f, hr, hv, hc, rfl⟩
  | pause i d hf hp hd => exact absurd hf ht
  | finish hfin => exact absurd hfin.1 ht
  | arrive x hf hp hx => exact absurd hf ht
  | search x hf hp hx => exact absurd hf ht
  | effect i hacc => exact absurd ((effectOf_fault i (takeCommand s)).trans ((ready_iff s).1 hacc.1).1) ht
  | present hr hv => exact absurd ((presentNext_fault s).trans ((ready_iff s).1 hr).1) ht

theorem lifecycle_eq_faulted_iff (s : State) : lifecycle s = .faulted ↔ s.fault ≠ 0 := by
  unfold lifecycle
  split_ifs <;> simp_all

/-- The status outputs of a Faulted unit (R21). -/
theorem outputs_of_fault {s : State} (h : s.fault ≠ 0) : outReady s = 0 ∧ outFault s = 1 := by
  rw [outReady, outFault, State.ready, decide_eq_false h, decide_eq_true h]
  exact ⟨rfl, rfl⟩

/-- Settles O36: the faulting step is the acceptance, which only faults, and no step follows. -/
theorem faultsArePreciseAndFinal : Obligations.FaultsArePreciseAndFinal := by
  intro s t h ht
  obtain ⟨f, hr, hv, -, rfl⟩ := raises_of_step h ht
  obtain ⟨hready, hfault⟩ := outputs_of_fault ht
  exact ⟨hr, hv, onlyFaults_raiseUsageFault f s, (lifecycle_eq_faulted_iff _).2 ht, hready, hfault, rfl,
    step_ne_next_of_fault ht⟩

/-- Settles O38: by the invariant a response shown has the status of the fault register, and none is shown during a
command. -/
theorem responsesEndTheirCommands : Obligations.ResponsesEndTheirCommands := by
  intro s t hinv h hshown
  have hinv' : UnitInv t := unitInv_of_step hinv h
  rw [hinv'.rsp_status hshown]
  refine ⟨fun hf => (ready_iff t).2 ⟨hf, ?_⟩, fun hf => ⟨rfl, step_ne_next_of_fault hf⟩⟩
  by_contra hbusy
  exact absurd hshown (Bool.eq_false_iff.1 (hinv'.busy_silent hbusy))

/-- Settles O12: the invariant is kept form by form. -/
theorem everyStepKeepsTheInvariant : Obligations.EveryStepKeepsTheInvariant := fun _ _ => unitInv_of_step

/-! ### Who writes what (R18, R43) -/

/-- Settles O41: by what a step can do to memory, with the laws of a store. -/
theorem slotsChangeOnlyByWriteOrWipe : Obligations.SlotsChangeOnlyByWriteOrWipe := by
  intro s t x hwf h
  obtain hmem | ⟨a, v, hacc, hmem⟩ | ⟨hacc, hmem⟩ := mem_of_step h
  · exact .inl (by rw [hmem])
  · by_cases hx : x = sectorOf a
    · have htarget : a.toNat = x.toNat := by
        rw [hx, sectorOf_toNat_of_le (toNat_le_of_accepts_write hacc)]
      refine .inr (.inr ⟨a, v, hacc, htarget, ?_⟩)
      rw [hmem, hx, memRead_memWrite_same _ _ _ hwf, normWord_normWord, normWord]
    · exact .inl (by rw [hmem, memRead_memWrite_other _ _ _ _ hwf hx])
  · exact .inr (.inl ⟨hacc, by rw [hmem, memRead_clear]⟩)

/-- A presented word leaves the spinning as it is. -/
@[simp] theorem presentNext_spinning (s : State) : (presentNext s).spinning = s.spinning := by
  obtain ⟨_, heq⟩ | ⟨w, ws, _, heq⟩ := presentNext_cases s <;> rw [heq]

/-- All that a step can do to `is_spinning` (R14): nothing, the last step of a `SPIN_UP`, or an accepted `WIPE`. -/
theorem spinning_of_step {s t : State} (h : step s = .next t) :
    t.spinning = s.spinning ∨ (FinishesSpinUp s ∧ t.spinning = true) ∨ (Accepts s .wipe ∧ t.spinning = false) := by
  cases stepForm_of_step h with
  | finish hfin => exact .inr (.inl ⟨hfin, rfl⟩)
  | pause i d hf hp hd => exact .inl rfl
  | arrive x hf hp hx => exact .inl rfl
  | search x hf hp hx => exact .inl rfl
  | raise f hr hv hc => exact .inl rfl
  | present hr hv => exact .inl (presentNext_spinning s)
  | effect i hacc =>
    cases i with
    | wipe => exact .inr (.inr ⟨hacc, rfl⟩)
    | spinUp => exact .inl rfl
    | rotate => exact .inl rfl
    | locate a => exact .inl rfl
    | read a => exact .inl rfl
    | write a v => exact .inl rfl
    | pcLoad p => exact .inl rfl

theorem lifecycle_eq_spinning_iff (s : State) : lifecycle s = .spinning ↔ s.fault = 0 ∧ s.spinning = true := by
  unfold lifecycle
  split_ifs <;> simp_all

theorem lifecycle_eq_unpowered_iff (s : State) : lifecycle s = .unpowered ↔ s.fault = 0 ∧ s.spinning = false := by
  unfold lifecycle
  split_ifs <;> simp_all

/-- Settles O42: the lifecycle follows `is_spinning` and the fault register, and each has its writers. -/
theorem lifecycleMovesAsTheStateMachine : Obligations.LifecycleMovesAsTheStateMachine := by
  intro s t h
  simp only [lifecycle_eq_spinning_iff, lifecycle_eq_unpowered_iff, lifecycle_eq_faulted_iff, ne_eq]
  refine ⟨fun hf => step_ne_next_of_fault hf t h, fun ⟨_, hoff⟩ ⟨_, hon⟩ => ?_, fun ⟨_, hon⟩ ⟨_, hoff⟩ => ?_, fun ht => ?_⟩
  · obtain hkept | ⟨hfin, -⟩ | ⟨-, hstop⟩ := spinning_of_step h
    · simp [hkept, hoff] at hon
    · exact hfin
    · simp [hstop] at hon
  · obtain hkept | ⟨-, hstart⟩ | ⟨hacc, -⟩ := spinning_of_step h
    · simp [hkept, hon] at hoff
    · simp [hstart] at hoff
    · exact hacc
  · obtain ⟨f, hr, hv, hc, -⟩ := raises_of_step h ht
    exact ⟨hr, hv, f, hc⟩

/-! ### RESET (R130) -/

/-- Settles O10: RESET of an idle unit, and its refusal during a command. -/
theorem resetClearsFaulted : Obligations.ResetClearsFaulted := fun s =>
  ⟨fun hp => ⟨_, applyReset_idle s hp, rfl, rfl, rfl, (ready_iff _).2 ⟨rfl, rfl⟩, rfl, rfl, rfl, rfl, rfl⟩,
    applyReset_busy s⟩

/-- The suggested parameters are as R6 and R7 require. -/
theorem suggestedParams_ok : Config.suggestedParams.ok := by decide

/-- Settles O11: the state of R131 for any allowed parameters, the suggested ones among them. -/
theorem resetMeetsTheInvariant : Obligations.ResetMeetsTheInvariant :=
  ⟨fun _ => unitInv_resetWith, suggestedParams_ok, unitInv_resetWith suggestedParams_ok⟩

end Sys2Proof.Machine
end

section
/-! SUPPORT. The multi-step commands state by state: the pauses of `SPIN_UP` (R71), the rotations of `LOCATE` (R81) and of
`ROTATE` words (R78). -/

namespace Sys2Proof.Machine

/-- One step more at the end of a run. -/
theorem run_succ_of_run {n : Nat} {s t u : State} (h : run n s = .next t) (hu : step t = .next u) :
    run (n + 1) s = .next u :=
  (run_add n 1 s t h).trans ((run_one t).trans hu)

/-- A word at the front of the caller's script whose command passes its checks takes a presenting step and its acceptance
(R19, R65; log 1). -/
theorem run_word {s : State} {w : CmdWord} {i : Instr} {ws : List CmdWord} (hr : s.ready = true) (hv : s.cmdValid = false)
    (hscript : s.script = w :: ws) (hw : decode w = .command i) (hc : check s (.command i) = none) :
    run 2 s = .next (effectOf i { s with cmd := w, cmdValid := false, script := ws, rspValid := false }) := by
  have hpresent : step s = .next { s with cmd := w, cmdValid := true, script := ws } :=
    (readyUnitTakesTheCallersNextWord s hr hv).2 w ws hscript
  have hacc : Accepts { s with cmd := w, cmdValid := true, script := ws } i := ⟨hr, rfl, hw, hc⟩
  exact run_succ_of_run ((run_one s).trans hpresent) (step_of_accepts hacc)

/-! ### The pauses of a SPIN_UP -/

/-- The state after `j` more pauses of a `SPIN_UP` that has requested `i` (R71). -/
def paused (i j : Nat) (s : State) : State :=
  { s with phase := .spinPause (i + j), trace := s.trace ++ ((s.params.spinupPausesUs.drop i).take j).map .delay }

/-- While pauses are left each takes one step, and changes the phase and the trace only. -/
theorem run_paused {s : State} {i : Nat} (hf : s.fault = 0) (hp : s.phase = .spinPause i) (j : Nat)
    (hj : i + j ≤ s.params.spinupPausesUs.length) : run j s = .next (paused i j s) := by
  induction j with
  | zero => simp [paused, ← hp]
  | succ j ih =>
    have hlt : j < (s.params.spinupPausesUs.drop i).length := by rw [List.length_drop]; omega
    have hd : s.params.spinupPausesUs[i + j]? = some (s.params.spinupPausesUs.drop i)[j] := by
      rw [← List.getElem?_drop, List.getElem?_eq_getElem hlt]
    have hstep := step_of_stepForm (.pause (i + j) _ (s := paused i j s) hf rfl hd)
    rw [run_succ_of_run (ih (by omega)) hstep]
    simp [paused, emitEvent, List.take_succ_eq_append_getElem hlt, Nat.add_assoc]

/-- A `SPIN_UP` ends with its last step, once every pause left has been requested. -/
theorem run_finishSpinUp {s : State} {i : Nat} (hf : s.fault = 0) (hp : s.phase = .spinPause i)
    (hi : i ≤ s.params.spinupPausesUs.length) :
    run (s.params.spinupPausesUs.length - i + 1) s =
      .next (finishSpinUp { s with trace := s.trace ++ (s.params.spinupPausesUs.drop i).map .delay }) := by
  have hpauses := run_paused hf hp (s.params.spinupPausesUs.length - i) (by omega)
  have hlast : FinishesSpinUp (paused i (s.params.spinupPausesUs.length - i) s) := ⟨hf, _, rfl, (Nat.add_sub_of_le hi).ge⟩
  rw [run_succ_of_run hpauses (step_of_stepForm (.finish hlast)), paused, List.take_of_length_le (by rw [List.length_drop])]
  rfl

/-- An accepted `SPIN_UP` from its acceptance to its end (R71). -/
theorem run_exec_spinUp {s : State} (hr : s.ready = true) :
    run (s.params.spinupPausesUs.length + 1) { takeCommand s with phase := .spinPause 0 } =
      .next (finishSpinUp { takeCommand s with trace := s.trace ++ s.params.spinupPausesUs.map .delay }) :=
  run_finishSpinUp (s := { takeCommand s with phase := .spinPause 0 }) ((ready_iff s).1 hr).1 rfl (Nat.zero_le _)

/-- Settles O25: the state after each pause, and after the last step. -/
theorem spinUpRunsItsPausesThenFinishes : Obligations.SpinUpRunsItsPausesThenFinishes := by
  intro s hr
  obtain ⟨hf, -⟩ := (ready_iff s).1 hr
  refine ⟨_, exec_spinUp s, fun i hi => ?_, _, run_exec_spinUp hr, rfl, rfl, rfl, hf, rfl, (ready_iff _).2 ⟨hf, rfl⟩,
    ⟨rfl, rfl, rfl⟩, rfl, fun _ => rfl, rfl, rfl, rfl, rfl, rfl⟩
  have hrun := run_paused (s := { takeCommand s with phase := .spinPause 0 }) hf rfl i (by rwa [Nat.zero_add])
  exact ⟨_, hrun, congrArg Phase.spinPause (Nat.zero_add i), rfl, rfl, rfl, rfl, hf, rfl, fun _ => rfl, rfl, rfl, rfl,
    rfl, rfl⟩

/-- Settles O26: the last step puts the head at the value drawn, the first answer of the source. -/
theorem spinUpEndsAtAnyAnsweredPosition : Obligations.SpinUpEndsAtAnyAnsweredPosition := fun _ _ _ hr =>
  ⟨_, _, exec_spinUp _, run_exec_spinUp hr, rfl, rfl, rfl, rfl⟩

/-! ### The rotations of a LOCATE -/

/-- The state after `k` rotation steps (R75, R78). -/
def rotated : Nat → State → State
  | 0, s => s
  | k + 1, s => rotated k (rotationStep s)

/-- `k` rotation steps change the head and the trace only (R75). -/
theorem rotated_frame (k : Nat) (s : State) :
    rotated k s = { s with cs := (rotated k s).cs, trace := s.trace ++ rotationEvents s.params.tSectorUs k s.cs } := by
  induction k generalizing s with
  | zero => simp [rotated, rotationEvents]
  | succ k ih =>
    rw [rotated, ih]
    simp [rotationEvents, rotationStep, emitEvent]

/-- `k` rotation steps advance the head by `k` sectors (R78). -/
theorem rotated_cs_toNat (k : Nat) (s : State) : (rotated k s).cs.toNat = (s.cs.toNat + k) % 4096 := by
  induction k generalizing s with
  | zero => exact (Nat.mod_eq_of_lt s.cs.isLt).symm
  | succ k ih =>
    rw [rotated, ih, rotationStep_cs, nextSector_toNat]
    omega

/-- As many rotation steps as the distance bring the head to the target (R81). -/
theorem rotated_sectorDist_cs (s : State) (x : Sector) : (rotated (sectorDist s.cs x) s).cs = x :=
  BitVec.eq_of_toNat_eq ((rotated_cs_toNat _ s).trans (add_sectorDist_mod s.cs x))

/-- A search rotates, one step each, until it is at its target (R80, R81). -/
theorem run_rotated {s : State} {x : Sector} (hf : s.fault = 0) (hp : s.phase = .locating x) {k : Nat}
    (hk : k ≤ sectorDist s.cs x) : run k s = .next (rotated k s) := by
  induction k generalizing s with
  | zero => rfl
  | succ k ih =>
    have hx : s.cs ≠ x := fun h => by simp [h] at hk
    have hk' : k ≤ sectorDist (rotationStep s).cs x := by
      rw [sectorDist_nextSector _ _ hx] at hk
      exact Nat.le_of_succ_le_succ hk
    rw [run_succ_next k s _ (step_of_stepForm (.search x hf hp hx)), ih (s := rotationStep s) hf hp hk', rotated]

/-- The state in which a search for `x` ends (R81). -/
def located (x : Sector) (s : State) : State :=
  respond 0 0 { s with
    cs := x, phase := .idle, trace := s.trace ++ rotationEvents s.params.tSectorUs (sectorDist s.cs x) s.cs }

/-- A search ends with a completing step, its rotations done (R81). -/
theorem run_located {s : State} {x : Sector} (hf : s.fault = 0) (hp : s.phase = .locating x) :
    run (sectorDist s.cs x + 1) s = .next (located x s) := by
  have hframe := rotated_frame (sectorDist s.cs x) s
  rw [rotated_sectorDist_cs] at hframe
  have hrun := run_rotated hf hp (le_refl (sectorDist s.cs x))
  rw [hframe] at hrun
  exact run_succ_of_run hrun (step_of_stepForm (.arrive x hf hp rfl))

/-- Settles O27: the state after each rotation, and after the completing step. -/
theorem locatingReachesTheTarget : Obligations.LocatingReachesTheTarget := by
  intro s x hf hp
  refine ⟨Nat.le_of_lt_succ (sectorDist_lt s.cs x), fun j hj => ⟨_, run_rotated hf hp hj, ?_⟩, _, run_located hf hp, rfl, rfl,
    rfl, rfl, rfl, rfl, rfl, hf, rfl, fun _ => rfl, rfl, rfl, rfl, rfl, rfl⟩
  have hcs := rotated_cs_toNat j s
  rw [rotated_frame] at hcs ⊢
  exact ⟨hp, hcs, rfl, by simp, rfl, rfl, hf, rfl, rfl, rfl, fun _ => rfl, rfl, rfl, rfl, rfl, rfl⟩

/-- The distance to an argument in range, as the number the spec gives (R34, R81). -/
theorem eq_sectorDist_sectorOf {c : Sector} {a : Arg} {k : Nat} (ha : a.toNat ≤ 4095)
    (hk : (k : Int) = ((a.toNat : Int) - c.toNat) % 4096) : k = sectorDist c (sectorOf a) := by
  have := sectorDist_eq_emod c (sectorOf a)
  rw [sectorOf_toNat_of_le ha] at this
  omega

/-- Settles O28: the search that the acceptance begins, from its first rotation to its end. -/
theorem locateCostsTheRotationalDistance : Obligations.LocateCostsTheRotationalDistance := by
  intro s a k hr hs ha hk
  obtain rfl := eq_sectorDist_sectorOf ha hk
  obtain ⟨hf, -⟩ := (ready_iff s).1 hr
  have htarget : (sectorOf a).toNat = a.toNat := sectorOf_toNat_of_le ha
  have hrun := run_located (s := { takeCommand s with phase := .locating (sectorOf a) }) hf rfl
  refine ⟨Nat.le_of_lt_succ (sectorDist_lt _ _), _, _, exec_inRange hs (ite_inRange_of_le ha .sectorRange), hrun, htarget,
    (ready_iff _).2 ⟨hf, rfl⟩, ⟨rfl, rfl, rfl⟩, by simp [located], by simp [located], rfl, hs, fun _ => rfl,
    ⟨rfl, rfl, rfl, rfl, rfl⟩, fun hzero => ?_⟩
  have hx : s.cs = sectorOf a := not_ne_iff.1 fun h => by simp [sectorDist_nextSector _ _ h] at hzero
  exact ⟨by simp [located, hzero, rotationEvents], hx.symm⟩

/-! ### ROTATE words -/

theorem length_rotationEvents (us k : Nat) (c : Sector) : (rotationEvents us k c).length = 2 * k := by
  induction k generalizing c with
  | zero => rfl
  | succ k ih => simp only [rotationEvents, List.length_cons, ih]; omega

/-- `k` `ROTATE` words advance the head by `k` (R78). -/
theorem run_rotateWords {s : State} {ws rest : List CmdWord} (hr : s.ready = true) (hs : s.spinning = true)
    (hv : s.cmdValid = false) (hws : ∀ w ∈ ws, decode w = .command .rotate) (hscript : s.script = ws ++ rest) :
    ∃ t, run (2 * ws.length) s = .next t ∧ t.cs.toNat = (s.cs.toNat + ws.length) % 4096 ∧
      t.trace = s.trace ++ rotationEvents s.params.tSectorUs ws.length s.cs ∧ t.script = rest ∧ t.ready = true ∧
      t.spinning = true ∧ t.pc = s.pc ∧ MemKept s t := by
  induction ws generalizing s with
  | nil => exact ⟨s, rfl, (Nat.mod_eq_of_lt s.cs.isLt).symm, (List.append_nil _).symm, hscript, hr, hs, rfl, fun _ => rfl⟩
  | cons w ws ih =>
    obtain ⟨hw, hws⟩ := List.forall_mem_cons.1 hws
    have hfirst := run_word (ws := ws ++ rest) hr hv hscript hw (check_of_spinning .rotate hs)
    obtain ⟨t, hrun, hcs, htrace, hrest⟩ :=
      ih (s := effectOf .rotate { s with cmd := w, cmdValid := false, script := ws ++ rest, rspValid := false })
        hr hs rfl hws rfl
    refine ⟨t, ?_, ?_, ?_, hrest⟩
    · rw [List.length_cons, Nat.mul_succ, Nat.add_comm, run_add 2 _ s _ hfirst, hrun]
    · simp only [effectOf, respond_cs, rotationStep_cs, nextSector_toNat] at hcs
      rw [hcs, List.length_cons]
      omega
    · rw [htrace]
      simp [effectOf, rotationEvents]

/-- Settles O29: by induction on the words. -/
theorem rotatesCloseTheRevolution : Obligations.RotatesCloseTheRevolution := by
  rintro _ s ws rest hr hs hv rfl hws hscript
  obtain ⟨t, hrun, hcs, htrace, hrest⟩ := run_rotateWords hr hs hv hws hscript
  refine ⟨t, hrun, hcs, fun hk => BitVec.eq_of_toNat_eq ?_, htrace, length_rotationEvents _ _ _, hrest⟩
  rw [hcs, hk, Nat.add_mod_right, Nat.mod_eq_of_lt s.cs.isLt]

/-! ### A command in progress -/

/-- The words the caller has issued and the parameters are as before. -/
def IssuedKept (s t : State) : Prop := t.cmdValid = s.cmdValid ∧ t.script = s.script ∧ t.params = s.params

/-- A unit without a fault is ready within as many steps as a revolution or the pauses take (R71, R81), its words kept. -/
theorem run_to_ready {s : State} (hinv : UnitInv s) (hf : s.fault = 0) :
    ∃ k t, k ≤ max 4096 (s.params.spinupPausesUs.length + 1) ∧ run k s = .next t ∧ t.ready = true ∧ IssuedKept s t := by
  cases hp : s.phase with
  | idle => exact ⟨0, s, Nat.zero_le _, rfl, (ready_iff s).2 ⟨hf, hp⟩, rfl, rfl, rfl⟩
  | spinPause i =>
    have hi : i ≤ s.params.spinupPausesUs.length := by simpa [PhaseLegal, hp] using hinv.phase_legal
    exact ⟨_, _, by omega, run_finishSpinUp hf hp hi, (ready_iff _).2 ⟨hf, rfl⟩, rfl, rfl, rfl⟩
  | locating x =>
    have := sectorDist_lt s.cs x
    exact ⟨_, _, by omega, run_located hf hp, (ready_iff _).2 ⟨hf, rfl⟩, rfl, rfl, rfl⟩

/-- Settles O33, by the phase. -/
theorem everyCommandInProgressCompletes : Obligations.EveryCommandInProgressCompletes := by
  intro s hinv hf
  obtain ⟨k, t, hk, hrun, hr, -⟩ := run_to_ready hinv hf
  exact ⟨k, t, hk, hrun, hr⟩

end Sys2Proof.Machine
end

section
/-! SUPPORT. The big-step view (R66): the small-step machine completes each command in the state of its big step. -/

namespace Sys2Proof.Machine

/-! ### The checks on both sides (R107) -/

/-- The guard of the big step is the checks of the machine, for a command whose range check compares `arg` with 4095. -/
theorem bigGuard_eq_elim_check {s : State} {i : Instr} {arg : Nat} {code : FaultCode} {e : BigResult}
    (hn : needsSpinning i = true) (hin : arg ≤ 4095 → rangeFault i = none)
    (hout : 4095 < arg → ∃ g, rangeFault i = some g ∧ faultCode g = code) :
    bigGuard (unitOf s) arg code e = (check s (.command i)).elim e (fun f => bigFault (faultCode f) (unitOf s)) := by
  cases hs : s.spinning with
  | false => simp [bigGuard, unitOf, check, hn, hs, faultCode]
  | true =>
    rw [check_of_spinning i hs]
    obtain harg | harg := Nat.lt_or_ge 4095 arg
    · obtain ⟨g, hg, rfl⟩ := hout harg
      simp [bigGuard, unitOf, hs, hg, harg]
    · simp [bigGuard, unitOf, hs, hin harg, Nat.not_lt.2 harg]

/-- The same for a command with a 16-bit argument and the range fault `g`. -/
theorem bigGuard_arg_eq_elim_check {s : State} {i : Instr} {a : Arg} {g : UsageFault} {e : BigResult}
    (hn : needsSpinning i = true) (hr : rangeFault i = if inRange a then none else some g) :
    bigGuard (unitOf s) a.toNat (faultCode g) e =
      (check s (.command i)).elim e (fun f => bigFault (faultCode f) (unitOf s)) :=
  bigGuard_eq_elim_check hn (fun h => hr.trans (ite_inRange_of_le h g)) fun h => ⟨g, hr.trans (ite_inRange_of_lt h g), rfl⟩

/-- What a big step does once the checks are passed, by the **Result** lines (R70 to R96). -/
def bigEffect (p : Config.Params) (i : Instr) (r : Sector) (u : DrumUnit) : BigResult :=
  match i with
  | .spinUp =>
    { unit := { u with pc := 0, cs := r, spinning := true }, status := 0, rdata := 0,
      events := p.spinupPausesUs.map .delay }
  | .rotate =>
    { unit := { u with cs := u.cs + 1 }, status := 0, rdata := 0, events := [.rotate (u.cs + 1), .delay p.tSectorUs] }
  | .locate t =>
    { unit := { u with cs := sectorOf t }, status := 0, rdata := 0,
      events := rotationEvents p.tSectorUs (sectorDist u.cs (sectorOf t)) u.cs }
  | .read x => { unit := u, status := 0, rdata := memRead u.mem (sectorOf x) &&& 0x7FFFFFFF, events := [] }
  | .write x v => bigDone { u with mem := memWrite u.mem (sectorOf x) (v &&& 0x7FFFFFFF) }
  | .wipe => bigDone { u with mem := [], pc := 0, cs := 0, spinning := false }
  | .pcLoad q => bigDone { u with pc := sectorOf q }

/-- A big step is the fault of the first failing check, or the command's effect. -/
theorem bigStep_command (s : State) (p : Config.Params) (i : Instr) (r : Sector) :
    bigStep p (.command i) r (unitOf s) =
      (check s (.command i)).elim (bigEffect p i r (unitOf s)) (fun f => bigFault (faultCode f) (unitOf s)) := by
  cases i with
  | spinUp | wipe => rfl
  | rotate => exact bigGuard_eq_elim_check rfl (fun _ => rfl) (fun h => absurd h (by decide))
  | locate a | read a | write a _ => exact bigGuard_arg_eq_elim_check (g := .sectorRange) rfl rfl
  | pcLoad a => exact bigGuard_arg_eq_elim_check (g := .pcRange) rfl rfl

/-! ### The completed state -/

/-- A word that fails a check completes in the state the fault leaves (R109). -/
theorem completed_of_check_fault {s : State} {c : Decoded} {f : UsageFault} (h : check s c = some f) :
    completed s c = raiseUsageFault f (takeCommand s) := by
  have hbig : bigStep s.params c (drawValue s) (unitOf s) = bigFault (faultCode f) (unitOf s) := by
    cases c with
    | illegal why =>
      obtain rfl := Option.some.inj h
      rfl
    | command i => rw [bigStep_command, h, Option.elim_some]
  have hdraw : c ≠ .command .spinUp := fun hc => by simp [hc, check_spinUp] at h
  simp only [completed, hbig, if_neg hdraw]
  simp [bigFault, unitOf, raiseUsageFault, respond, takeCommand]

/-- The unit's part, the events and the response of a command that passes its checks are those of its effect (R65). -/
theorem completed_of_check_none {s : State} {i : Instr} (h : check s (.command i) = none) :
    completed s (.command i) =
      let b := bigEffect s.params i (drawValue s) (unitOf s)
      { (if i = .spinUp then drawDone s else s) with
        mem := b.unit.mem, pc := b.unit.pc, cs := b.unit.cs, spinning := b.unit.spinning, fault := b.unit.fault,
        trace := s.trace ++ b.events, cmdValid := false, rsp := rspWord b.status b.rdata, rspValid := true } := by
  simp [completed, bigStep_command, h]

/-- A command that passes its checks runs from its acceptance to its completed state in the steps the spec counts. -/
theorem run_completed {s : State} {i : Instr} (h : Accepts s i) :
    run (stepsOf s (.command i)) s = .next (completed s (.command i)) := by
  have hstep := step_of_accepts h
  obtain ⟨hr, -, -, hc⟩ := h
  obtain ⟨hf, hp⟩ := (ready_iff s).1 hr
  rw [completed_of_check_none hc]
  cases i with
  | spinUp =>
    simp only [stepsOf, hc, Nat.add_comm 1]
    rw [run_succ_next _ s _ hstep]
    refine (run_exec_spinUp hr).trans ?_
    simp [finishSpinUp, bigEffect, unitOf, drawDone, respond, takeCommand, drawValue, hp]
  | locate a =>
    simp only [stepsOf, hc, Nat.add_comm 1]
    rw [run_succ_next _ s _ hstep]
    refine (run_located (s := effectOf (.locate a) (takeCommand s)) hf rfl).trans ?_
    simp [located, effectOf, bigEffect, unitOf, respond, takeCommand, hp]
  | rotate =>
    simp only [stepsOf, hc, run_one, hstep]
    simp [effectOf, bigEffect, unitOf, rotationStep, emitEvent, respond, takeCommand, nextSector]
  | read a | write a v | wipe | pcLoad a =>
    simp only [stepsOf, hc, run_one, hstep]
    simp [effectOf, bigEffect, bigDone, unitOf, respond, takeCommand, normWord, memClear]

/-- Settles O30: a failing check completes at acceptance, every other command by its run. -/
theorem smallStepsAgreeWithTheBigStep : Obligations.SmallStepsAgreeWithTheBigStep := by
  intro s hr hv
  cases hc : check s (decode s.cmd) with
  | some f => rw [stepsOf_of_check_fault hc, run_one, step_of_check_fault hr hv hc, completed_of_check_fault hc]
  | none =>
    obtain ⟨i, hd, -⟩ := step_of_check_none hr hv hc
    rw [hd]
    exact run_completed ⟨hr, hv, hd, hd ▸ hc⟩

end Sys2Proof.Machine
end

section
/-! SUPPORT. The caller's text run (R67, R68): the lines of an aligned read and of a boot to their end, and any words issued
run until they are settled. -/

namespace Sys2Proof.Machine

/-! ### Lines -/

/-- The state a `RESET` line leaves: that of R131, the parameters and the random source kept, no word waiting (log 11,
log 17). -/
def restarted (s : State) : State :=
  { State.resetWith s.params with cmd := s.cmd, rngAnswers := s.rngAnswers, drawCount := s.drawCount }

theorem issueLine_reset_idle {s : State} (hp : s.phase = .idle) : issueLine .reset s = .next (restarted s) :=
  (issueLine_reset s).trans (applyReset_idle (withdrawWords s) hp)

theorem restarted_ready (s : State) : (restarted s).ready = true := (ready_iff _).2 ⟨rfl, rfl⟩

/-- Settles O45: the `RESET` line is read as such and issued as the reset input; any other line adds its words. -/
theorem resetLineIsTheResetInput : Obligations.ResetLineIsTheResetInput := by
  refine ⟨by decide, fun s => ⟨fun hp => ?_, fun hp => ?_, fun l => issueLine_words l s⟩⟩
  · exact ⟨_, issueLine_reset_idle hp, rfl, rfl, rfl, restarted_ready s, rfl, rfl, rfl, rfl, rfl⟩
  · exact (issueLine_reset s).trans (applyReset_busy (withdrawWords s) hp)

/-- A `SPIN_UP` word at the front of the script, from its presenting to the end of the command (R71; log 1). -/
theorem run_spinUpWord {s : State} {w : CmdWord} {ws : List CmdWord} (hr : s.ready = true) (hv : s.cmdValid = false)
    (hscript : s.script = w :: ws) (hw : decode w = .command .spinUp) :
    run (s.params.spinupPausesUs.length + 3) s =
      .next (finishSpinUp { s with
        cmd := w, cmdValid := false, script := ws, rspValid := false,
        trace := s.trace ++ s.params.spinupPausesUs.map .delay }) := by
  have haccept := run_word hr hv hscript hw (check_spinUp s)
  rw [show s.params.spinupPausesUs.length + 3 = 2 + (s.params.spinupPausesUs.length + 1) by omega, run_add 2 _ s _ haccept]
  exact run_exec_spinUp (s := { s with cmd := w, script := ws }) hr

/-- Settles O46: RESET withdraws what waited, and the one word of the `SPIN_UP` line is presented, accepted and run. -/
theorem resetLineThenSpinUpLineBoots : Obligations.ResetLineThenSpinUpLineBoots := by
  intro s hp
  have hissue := issueLine_words (.command .spinUp) (restarted s) nofun
  have hboot := run_spinUpWord (s := addWords [encode .spinUp] (restarted s)) (restarted_ready s) rfl rfl
    (encodedCommandDecodesToItself .spinUp)
  exact ⟨_, _, _, issueLine_reset_idle hp, hissue, hboot, (ready_iff _).2 ⟨rfl, rfl⟩, rfl, rfl, rfl, memRead_clear, rfl, rfl,
    rfl, rfl, rfl⟩

/-- What a slot reads as has its bit 31 clear already (R24). -/
@[simp] theorem normWord_memRead (m : Memory) (x : Sector) : normWord (memRead m x) = memRead m x := normWord_normWord _

/-- A `LOCATE` word at the front of the script of a Spinning unit, its target in range, from its presenting to the end of the
search (R81; log 1). -/
theorem run_locateWord {s : State} {w : CmdWord} {ws : List CmdWord} {a : Arg} (hr : s.ready = true)
    (hs : s.spinning = true) (hv : s.cmdValid = false) (hscript : s.script = w :: ws)
    (hw : decode w = .command (.locate a)) (ha : a.toNat ≤ 4095) :
    run (sectorDist s.cs (sectorOf a) + 3) s =
      .next (located (sectorOf a) { s with cmd := w, cmdValid := false, script := ws, rspValid := false }) := by
  have hc := (check_of_spinning (.locate a) hs).trans (ite_inRange_of_le ha .sectorRange)
  have haccept := run_word hr hv hscript hw hc
  rw [show sectorDist s.cs (sectorOf a) + 3 = 2 + (sectorDist s.cs (sectorOf a) + 1) by omega, run_add 2 _ s _ haccept]
  exact run_located (s := effectOf (.locate a) _) ((ready_iff s).1 hr).1 rfl

/-- A `LOCATE` word and then a `READ` word of the same sector, from the first presenting to the response (R81, R85). -/
theorem run_alignedRead {s : State} {w v : CmdWord} {a : Arg} (hr : s.ready = true) (hs : s.spinning = true)
    (hv : s.cmdValid = false) (hscript : s.script = [w, v]) (hlocate : decode w = .command (.locate a))
    (hread : decode v = .command (.read a)) (ha : a.toNat ≤ 4095) :
    run (sectorDist s.cs (sectorOf a) + 5) s =
      .next (respond 0 (memRead s.mem (sectorOf a)) { located (sectorOf a) s with
        cmd := v, cmdValid := false, script := [], rspValid := false }) := by
  have hsearch := run_locateWord hr hs hv hscript hlocate ha
  have haccess := run_word (i := .read a)
    (s := located (sectorOf a) { s with cmd := w, cmdValid := false, script := [v], rspValid := false })
    ((ready_iff _).2 ⟨((ready_iff s).1 hr).1, rfl⟩) rfl rfl hread
    ((check_of_spinning (.read a) hs).trans (ite_inRange_of_le ha .sectorRange))
  rw [run_add _ 2 _ _ hsearch, haccess]
  simp [effectOf, located, respond]

/-- Settles O32: the issued words are the aligned read's, and the rotations of its search are all that requests a delay. -/
theorem alignedReadCostsItsRotationalDistance : Obligations.AlignedReadCostsItsRotationalDistance := by
  intro s a k hr hs hv hscript ha hk
  obtain rfl := eq_sectorDist_sectorOf ha hk
  have hissued : (addWords [encode (.locate a), encode (.read a)] s).script = [encode (.locate a), encode (.read a)] := by
    rw [addWords_script, hscript, List.nil_append]
  have hrun := run_alignedRead (s := addWords _ s) hr hs hv hissued (encodedCommandDecodesToItself _)
    (encodedCommandDecodesToItself _) ha
  refine ⟨_, _, issueLine_words (.aread a) s nofun, hrun, (ready_iff _).2 ⟨((ready_iff s).1 hr).1, rfl⟩, rfl, rfl, ?_, ?_,
    rfl, fun _ => rfl⟩
  · simp [aligned, located]
  · simp [located, addWords]

/-! ### Settling -/

/-- `n` steps suffice for the words issued to be settled. -/
def SettlesIn (n : Nat) (s : State) : Prop := ∃ t, settle n s = .next t ∧ settled t = true

theorem settlesIn_of_settled {s : State} (h : settled s = true) (n : Nat) : SettlesIn n s :=
  ⟨s, settle_settled n s h, h⟩

/-- A step that settling takes as well. -/
theorem settlesIn_of_step {s t : State} {n : Nat} (h : step s = .next t) (ht : SettlesIn n t) : SettlesIn (n + 1) s := by
  cases hs : settled s with
  | true => exact settlesIn_of_settled hs _
  | false =>
    obtain ⟨u, hu, hsettled⟩ := ht
    exact ⟨u, (settle_step n s t hs h).trans hu, hsettled⟩

/-- A run that settling takes as well. -/
theorem settlesIn_of_run {k n : Nat} {s t : State} (h : run k s = .next t) (ht : SettlesIn n t) : SettlesIn (k + n) s := by
  induction k generalizing s with
  | zero => rwa [Nat.zero_add, Host.Outcome.next.inj h]
  | succ k ih =>
    obtain ⟨u, hu, hrun⟩ := run_succ_cases k s t h
    rw [Nat.succ_add]
    exact settlesIn_of_step hu (ih hrun)

/-- How many words the caller has issued that have not been accepted. -/
def pending (s : State) : Nat := s.script.length + s.cmdValid.toNat

/-- The longest a command can be at work after its acceptance (R71, R81). -/
def longest (p : Config.Params) : Nat := max 4096 (p.spinupPausesUs.length + 1)

/-- A ready unit with no word pending is settled. -/
theorem settled_of_pending_eq_zero {s : State} (hr : s.ready = true) (h : pending s = 0) : settled s = true := by
  obtain ⟨hscript, hv⟩ := Nat.add_eq_zero_iff.1 h
  exact (settled_iff s).2 (.inr ⟨hr, by simpa using hv, List.length_eq_zero_iff.1 hscript⟩)

/-- The effect of a command touches neither the issued words nor the parameters. -/
theorem issuedKept_effectOf (i : Instr) (s : State) : IssuedKept s (effectOf i s) := by
  cases i <;> exact ⟨rfl, rfl, rfl⟩

/-- A ready unit accepts the word on its port in one step, whatever it is (R65). -/
theorem step_takes_word {s : State} (hr : s.ready = true) (hv : s.cmdValid = true) :
    ∃ t, step s = .next t ∧ IssuedKept (takeCommand s) t := by
  cases hc : check s (decode s.cmd) with
  | some f => exact ⟨_, step_of_check_fault hr hv hc, rfl, rfl, rfl⟩
  | none =>
    obtain ⟨i, -, hstep⟩ := step_of_check_none hr hv hc
    exact ⟨_, hstep, issuedKept_effectOf i _⟩

/-- A ready unit with words pending has accepted one more after at most two steps (R19, R65). -/
theorem run_takes_word {s : State} {m : Nat} (hr : s.ready = true) (hm : pending s = m + 1) :
    ∃ k t, k ≤ 2 ∧ run k s = .next t ∧ pending t = m ∧ t.params = s.params := by
  cases hv : s.cmdValid with
  | true =>
    obtain ⟨t, hstep, hport, hscript, hparams⟩ := step_takes_word hr hv
    refine ⟨1, t, by omega, (run_one s).trans hstep, ?_, hparams⟩
    simpa [pending, hport, hscript, hv] using hm
  | false =>
    cases hws : s.script with
    | nil => simp [pending, hws, hv] at hm
    | cons w ws =>
      have hpresent := (readyUnitTakesTheCallersNextWord s hr hv).2 w ws hws
      obtain ⟨t, hstep, hport, hscript, hparams⟩ :=
        step_takes_word (s := { s with cmd := w, cmdValid := true, script := ws }) hr rfl
      refine ⟨2, t, le_refl 2, run_succ_of_run ((run_one s).trans hpresent) hstep, ?_, hparams⟩
      simpa [pending, hport, hscript, hws, hv] using hm

/-- With `m` words pending the unit is settled after the command in progress and, for each word, its presenting, its
acceptance and the longest command. -/
theorem run_to_settled {m : Nat} {s : State} (hinv : UnitInv s) (hm : pending s = m) :
    ∃ k t, k ≤ longest s.params + m * (longest s.params + 2) ∧ run k s = .next t ∧ settled t = true := by
  induction m generalizing s with
  | zero =>
    by_cases hf : s.fault = 0
    · obtain ⟨k, t, hk, hrun, hr, hport, hscript, -⟩ := run_to_ready hinv hf
      have hm' : pending t = 0 := by rw [pending, hport, hscript]; exact hm
      exact ⟨k, t, Nat.le_add_right_of_le hk, hrun, settled_of_pending_eq_zero hr hm'⟩
    · exact ⟨0, s, Nat.zero_le _, rfl, (settled_iff s).2 (.inl hf)⟩
  | succ m ih =>
    by_cases hf : s.fault = 0
    · obtain ⟨k, u, hk, hready, hr, hport, hscript, hparams⟩ := run_to_ready hinv hf
      have hu : pending u = m + 1 := by rw [pending, hport, hscript]; exact hm
      obtain ⟨j, v, hj, htake, hv, hparams'⟩ := run_takes_word hr hu
      have hword : run (k + j) s = .next v := (run_add k j s u hready).trans htake
      obtain ⟨l, t, hl, hrest, hsettled⟩ := ih (run_keeps UnitInv (fun _ _ => unitInv_of_step) _ hinv hword) hv
      refine ⟨k + j + l, t, ?_, (run_add _ l s v hword).trans hrest, hsettled⟩
      rw [hparams', hparams] at hl
      change k ≤ longest s.params at hk
      rw [Nat.succ_mul]
      omega
    · exact ⟨0, s, Nat.zero_le _, rfl, (settled_iff s).2 (.inl hf)⟩

/-- The bound of `settle` covers the words pending and a command in progress. -/
theorem le_settleBound (s : State) : longest s.params + pending s * (longest s.params + 2) ≤ settleBound s := by
  have hpending : pending s ≤ s.script.length + 1 := Nat.add_le_add_left (Bool.toNat_le _) _
  calc longest s.params + pending s * (longest s.params + 2)
    _ ≤ (longest s.params + 2) + (s.script.length + 1) * (longest s.params + 2) :=
      Nat.add_le_add (Nat.le_add_right _ 2) (Nat.mul_le_mul_right _ hpending)
    _ = settleBound s := by rw [settleBound, longest]; ring

/-- Settles O47: the run to the settled state is within the bound, and settling takes it. -/
theorem issuedWordsRunToTheirEnd : Obligations.IssuedWordsRunToTheirEnd := by
  intro s hinv
  obtain ⟨k, u, hk, hrun, hu⟩ := run_to_settled hinv rfl
  obtain ⟨n, hn⟩ := Nat.exists_eq_add_of_le (hk.trans (le_settleBound s))
  obtain ⟨t, hsettle, hsettled⟩ := settlesIn_of_run hrun (settlesIn_of_settled hu n)
  exact ⟨t, hn ▸ hsettle, fun hf => ((settled_iff t).1 hsettled).resolve_left (not_not.2 hf)⟩

end Sys2Proof.Machine
end

section
/-! SUPPORT. Durations (R145): no step reads one for anything but the event it emits. -/

namespace Sys2Proof.Machine

/-- The state `s` with other durations and another trace. -/
def retimed (p : Config.Params) (tr : List Event) (s : State) : State := { s with trace := tr, params := p }

/-- Two lists of events with as many rotations and as many delay requests. -/
def SameCounts (es es' : List Event) : Prop := rotations es = rotations es' ∧ delays es = delays es'

/-- The step from `s` to `t` adds some events, and from the retimed `s` the machine steps to the retimed `t`, adding events
alike. -/
def StepsAlike (p : Config.Params) (tr : List Event) (s t : State) : Prop :=
  ∃ es es', SameCounts es es' ∧ t.trace = s.trace ++ es ∧ step (retimed p tr s) = .next (retimed p (tr ++ es') t)

/-- A step without events is taken alike. -/
theorem stepsAlike_of_silent {p : Config.Params} {tr : List Event} {s t : State} (htrace : t.trace = s.trace)
    (h : StepForm (retimed p tr s) (retimed p tr t)) : StepsAlike p tr s t :=
  ⟨[], [], ⟨rfl, rfl⟩, by rw [htrace, List.append_nil], by rw [List.append_nil]; exact step_of_stepForm h⟩

/-- Any two rotation steps have events alike, whatever the quanta. -/
theorem sameCounts_rotation (c : Sector) (d d' : Nat) : SameCounts [.rotate c, .delay d] [.rotate c, .delay d'] :=
  ⟨rfl, rfl⟩

/-- A step that rotates is taken alike. -/
theorem stepsAlike_of_rotation {p : Config.Params} {tr : List Event} {s t : State}
    (htrace : t.trace = s.trace ++ [.rotate (nextSector s.cs), .delay s.params.tSectorUs])
    (h : StepForm (retimed p tr s) (retimed p (tr ++ [.rotate (nextSector s.cs), .delay p.tSectorUs]) t)) :
    StepsAlike p tr s t :=
  ⟨_, _, sameCounts_rotation _ _ _, htrace, step_of_stepForm h⟩

/-- Presenting a word reads neither durations nor trace. -/
theorem presentNext_retimed (p : Config.Params) (tr : List Event) (s : State) :
    presentNext (retimed p tr s) = retimed p tr (presentNext s) := by
  unfold presentNext
  rw [show (retimed p tr s).script = s.script from rfl]
  cases s.script <;> rfl

@[simp] theorem presentNext_trace (s : State) : (presentNext s).trace = s.trace := by
  obtain ⟨_, heq⟩ | ⟨w, ws, _, heq⟩ := presentNext_cases s <;> rw [heq]

/-- Every step is taken alike with other durations, as many pauses given. -/
theorem stepsAlike_of_step {p : Config.Params} {s t : State} (tr : List Event)
    (hlen : p.spinupPausesUs.length = s.params.spinupPausesUs.length) (h : step s = .next t) : StepsAlike p tr s t := by
  cases stepForm_of_step h with
  | pause i d hf hp hd =>
    have hlt : i < p.spinupPausesUs.length := by rw [hlen]; exact (List.getElem?_eq_some_iff.1 hd).1
    have hpause := StepForm.pause (s := retimed p tr s) i _ hf hp (List.getElem?_eq_getElem hlt)
    exact ⟨[.delay d], [.delay p.spinupPausesUs[i]], ⟨rfl, rfl⟩, rfl, step_of_stepForm hpause⟩
  | finish hfin =>
    obtain ⟨hf, i, hp, hi⟩ := hfin
    exact stepsAlike_of_silent rfl (.finish (s := retimed p tr s) ⟨hf, i, hp, hlen.trans_le hi⟩)
  | arrive x hf hp hx => exact stepsAlike_of_silent rfl (.arrive (s := retimed p tr s) x hf hp hx)
  | search x hf hp hx =>
    refine stepsAlike_of_rotation (rotationStep_moves s).2 ?_
    have := StepForm.search (s := retimed p tr s) x hf hp hx
    simpa [retimed, rotationStep, emitEvent] using this
  | raise f hr hv hc => exact stepsAlike_of_silent rfl (.raise (s := retimed p tr s) f hr hv hc)
  | present hr hv =>
    exact stepsAlike_of_silent (presentNext_trace s) (presentNext_retimed p tr s ▸ .present (s := retimed p tr s) hr hv)
  | effect i hacc =>
    have heffect := StepForm.effect (s := retimed p tr s) i hacc
    cases i with
    | rotate =>
      refine stepsAlike_of_rotation (rotationStep_moves (takeCommand s)).2 ?_
      simpa [retimed, effectOf, takeCommand, respond, rotationStep, emitEvent] using heffect
    | spinUp | locate _ | read _ | write _ _ | wipe | pcLoad _ => exact stepsAlike_of_silent rfl heffect

/-- Settles O44: the counts of the two traces grow alike. -/
theorem durationsDoNotAffectState : Obligations.DurationsDoNotAffectState := by
  intro s t q r ps tr hlen h
  obtain ⟨es, es', ⟨hrot, hdel⟩, htrace, hstep⟩ :=
    stepsAlike_of_step (p := { tSectorUs := q, tRevUs := r, spinupPausesUs := ps }) tr hlen h
  refine ⟨tr ++ es', hstep, ?_, ?_⟩
  · rw [htrace, rotations_append, rotations_append, hrot]
    omega
  · rw [htrace, delays_append, delays_append, hdel]
    omega

end Sys2Proof.Machine
end

section
/-! SUPPORT. The canonical form of memory (log 8): what it reads as determines the list. -/

namespace Sys2Proof.Machine

/-- The first listed byte of a canonical memory does not read as an unlisted one. -/
theorem readByte_head_ne_blank {a : Nat} {b : Byte} {m : Memory} (h : Memory.wf ((a, b) :: m)) :
    Memory.readByte ((a, b) :: m) a ≠ Memory.blank := by
  obtain ⟨-, -, hb, -⟩ := wf_cons a b m h
  rwa [readByte_cons, if_pos rfl]

/-- A canonical memory reads as blank below its first listed address. -/
theorem readByte_below_head {a x : Nat} {b : Byte} {m : Memory} (h : Memory.wf ((a, b) :: m)) (hx : x < a) :
    Memory.readByte ((a, b) :: m) x = Memory.blank := by
  obtain ⟨-, habove, -, -⟩ := wf_cons a b m h
  refine readByte_of_lt _ x fun p hp => ?_
  obtain rfl | hp := List.mem_cons.1 hp
  · exact hx
  · exact hx.trans (habove p hp)

/-- Of two canonical memories that read alike, the second begins no later than the first. -/
theorem head_le_of_readByte_eq {a a' : Nat} {b b' : Byte} {m n : Memory} (hm : Memory.wf ((a, b) :: m))
    (hn : Memory.wf ((a', b') :: n)) (h : ∀ x, Memory.readByte ((a, b) :: m) x = Memory.readByte ((a', b') :: n) x) :
    a' ≤ a := by
  by_contra hlt
  exact readByte_head_ne_blank hm ((h a).trans (readByte_below_head hn (Nat.lt_of_not_le hlt)))

/-- The tail of a canonical memory reads as the whole does, but for the first listed address, where it is blank. -/
theorem readByte_tail {a : Nat} {b : Byte} {m : Memory} (h : Memory.wf ((a, b) :: m)) (x : Nat) :
    m.readByte x = if x = a then Memory.blank else Memory.readByte ((a, b) :: m) x := by
  obtain ⟨-, habove, -, -⟩ := wf_cons a b m h
  rw [readByte_cons]
  split_ifs with hx
  · rw [hx, readByte_of_lt m a habove]
  · rfl

/-- Settles O14: by induction on both lists, the first listed address and its byte being what the memory reads as. -/
theorem canonicalMemoriesThatReadAlikeAreEqual : Obligations.CanonicalMemoriesThatReadAlikeAreEqual := by
  intro m
  induction m with
  | nil =>
    rintro (_ | ⟨⟨a', b'⟩, n⟩) - hn h
    · rfl
    · exact absurd (h a').symm (readByte_head_ne_blank hn)
  | cons p m ih =>
    obtain ⟨a, b⟩ := p
    rintro (_ | ⟨⟨a', b'⟩, n⟩) hm hn h
    · exact absurd (h a) (readByte_head_ne_blank hm)
    · obtain rfl : a = a' :=
        le_antisymm (head_le_of_readByte_eq hn hm fun x => (h x).symm) (head_le_of_readByte_eq hm hn h)
      obtain rfl : b = b' := by simpa [readByte_cons] using h a
      have htail : m = n := ih n (wf_cons a b m hm).1 (wf_cons a b n hn).1 fun x => by
        rw [readByte_tail hm, readByte_tail hn, h]
      rw [htail]

end Sys2Proof.Machine
end
